-- ==== Sys2Proof/Word.lean ====
section
/-! DEFINITION. The bit-vector types of the DCT block: command words, bytes of a serialised word, durations in
microseconds (00_scope.md R8, R10; 30_encoding.md R37). -/

namespace Sys2Proof

/-- A command word `cmd[15:0]` (30_encoding.md R37). -/
abbrev Word := BitVec 16

/-- A byte of a serialised command word (20_memory.md R35). -/
abbrev Byte := BitVec 8

/-- A duration: an unsigned count of microseconds of DW = 64 bits (00_scope.md R8). -/
abbrev Micros := BitVec 64

end Sys2Proof
end

