-- ==== Sys2Proof/Syntax.lean ====
section
/-! DEFINITION. The eight operations as syntax, one constructor per row of spec/opcode_table.json, and the closed
value sets of their operands (30_encoding.md R37, R38, R40). -/

namespace Sys2Proof

/-- Key select k: 0 = key A, 1 = key B (30_encoding.md R40). -/
inductive KeySel where
  | a
  | b
deriving DecidableEq, Repr

/-- An electrical level: of a button line, or the level a pin is driven to (30_encoding.md R40). -/
inductive Level where
  | low
  | high
deriving DecidableEq, Repr

/-- ButtonState: Up, Down (steady, inactive), Released, Pressed (edge, active) (30_encoding.md R40). -/
inductive ButtonState where
  | up
  | down
  | released
  | pressed
deriving DecidableEq, Repr

/-- An LED pin number, 0 to 3 (30_encoding.md R38). -/
abbrev Pin := Fin 4

/-- The operations. Every operand type holds exactly the values the field of its word can spell, the two values that
decode and then fault included (30_encoding.md R42: `light` with hi = lo, `gap` with b = 3). -/
inductive Instr where
  /-- TICK (40_timebase.md R45). -/
  | tick
  /-- UPDATE k (41_debounce.md R49). -/
  | update (k : KeySel)
  /-- ACTIVE s (41_debounce.md R50). -/
  | active (st : ButtonState)
  /-- FLOAT p (42_dynamic_pin.md R56). -/
  | float (p : Pin)
  /-- DRIVE p, v (42_dynamic_pin.md R57). -/
  | drive (p : Pin) (v : Level)
  /-- LIGHT hi, lo, c (43_charlieplex.md R61). -/
  | light (hi lo : Pin) (c : Bool)
  /-- FRAME pat (43_charlieplex.md R64). -/
  | frame (pat : BitVec 12)
  /-- GAP b (43_charlieplex.md R66). -/
  | gap (b : BitVec 2)
deriving DecidableEq, Repr

end Sys2Proof
end

