-- ==== Sys2Proof/WellFormed.lean ====
section
/-! DEFINITION. Which instructions keep the block's contract in their own fields. The operand types already hold
exactly what a word can spell, so every instruction has a word; two families of words decode and then halt on the
value of a field (30_encoding.md R42), and those are the ones the check refuses. -/

namespace Sys2Proof

/-- The pair of LIGHT is a pair of distinct pins: hi = lo addresses no LED (30_encoding.md R41, R42). -/
def Instr.pairOk : Instr → Bool
  | .light hi lo _ => hi != lo
  | .tick | .update _ | .active _ | .float _ | .drive _ _ | .frame _ | .gap _ => true

/-- The brightness index of GAP is 0, 1 or 2 (30_encoding.md R38, R42). -/
def Instr.brightnessOk : Instr → Bool
  | .gap b => b != 3#2
  | .tick | .update _ | .active _ | .float _ | .drive _ _ | .light _ _ _ | .frame _ => true

/-- An instruction whose fields violate no contract of the block. -/
def Instr.wellFormed (i : Instr) : Bool := i.pairOk && i.brightnessOk

end Sys2Proof
end

