-- ==== Sys2Proof/Decode.lean ====
section
/-! DEFINITION. The value codes, the decoder (total, rejecting by name) and the encoder, written from the tables of
30_encoding.md R37 to R42. -/

namespace Sys2Proof

/-! ## Value codes (30_encoding.md R40) -/

/-- Key select as a number: 0 = key A, 1 = key B. -/
def KeySel.num : KeySel → Nat
  | .a => 0
  | .b => 1

/-- A level as a number: 0 = LOW, 1 = HIGH. -/
def Level.num : Level → Nat
  | .low => 0
  | .high => 1

/-- The level a bit stands for. -/
def Level.ofBit (b : Bool) : Level := if b then .high else .low

/-- The ButtonState codes: bit 1 = edge, bit 0 = the low (pressed) side. -/
def ButtonState.code : ButtonState → BitVec 2
  | .up => 0b00#2
  | .down => 0b01#2
  | .released => 0b10#2
  | .pressed => 0b11#2

/-- The ButtonState of a code; all four codes are legal. -/
def ButtonState.ofCode (c : BitVec 2) : ButtonState :=
  if c = 0b00#2 then .up else if c = 0b01#2 then .down else if c = 0b10#2 then .released else .pressed

/-! ## The opcode map (30_encoding.md R39) -/

/-- The eight rows of the opcode map by name. -/
inductive Op where
  | tick
  | update
  | active
  | float
  | drive
  | light
  | frame
  | gap
deriving DecidableEq, Repr

/-- One row of the opcode map: a word selects the row when its bits under the mask are the row's pattern. -/
structure Row where
  op : Op
  pattern : Word
  mask : Word
deriving DecidableEq, Repr

/-- The opcode map of 30_encoding.md R39, row for row. -/
def opcodeRows : List Row :=
  [ ⟨.tick,   0x1000#16, 0xFFFF#16⟩,
    ⟨.update, 0x2000#16, 0xFFFE#16⟩,
    ⟨.active, 0x3000#16, 0xFFFC#16⟩,
    ⟨.float,  0x4000#16, 0xFFFC#16⟩,
    ⟨.drive,  0x5000#16, 0xFFF8#16⟩,
    ⟨.light,  0x6000#16, 0xFFE0#16⟩,
    ⟨.frame,  0x7000#16, 0xF000#16⟩,
    ⟨.gap,    0x8000#16, 0xFFFC#16⟩ ]

/-- `(cmd & mask) = match` (30_encoding.md R39). -/
def Row.selects (r : Row) (w : Word) : Bool := (w &&& r.mask) == r.pattern

/-! ## Fields (30_encoding.md R38) -/

/-- The 2-bit field of a word whose low bit is bit `lo`. -/
def field2 (w : Word) (lo : Nat) : BitVec 2 := w.extractLsb' lo 2

/-- A 2-bit field read as an LED pin number. -/
def pinField (w : Word) (lo : Nat) : Pin := ⟨(field2 w lo).toNat, (field2 w lo).isLt⟩

/-- The instruction that a word of the named row spells. -/
def Op.instr (op : Op) (w : Word) : Instr :=
  match op with
  | .tick => .tick
  | .update => .update (if w.getLsbD 0 then .b else .a)
  | .active => .active (ButtonState.ofCode (field2 w 0))
  | .float => .float (pinField w 0)
  | .drive => .drive (pinField w 0) (Level.ofBit (w.getLsbD 2))
  | .light => .light (pinField w 2) (pinField w 0) (w.getLsbD 4)
  | .frame => .frame (w.extractLsb' 0 12)
  | .gap => .gap (field2 w 0)

/-! ## The decoder -/

/-- Why a word decodes to nothing (30_encoding.md R42); the block makes no difference between the two. -/
inductive DecodeError where
  /-- `op` is 0x0 or 0x9 to 0xF. -/
  | reservedOpcode
  /-- `op` is an operation's, and a reserved bit of `cmd[11:0]` is 1. -/
  | reservedBit
  /-- A byte string too short to hold a command word. -/
  | truncated
deriving DecidableEq, Repr

/-- The opcode field `cmd[15:12]`. -/
def opField (w : Word) : BitVec 4 := w.extractLsb' 12 4

/-- The reason a word that no row selects is refused. -/
def rejection (w : Word) : DecodeError :=
  if 1#4 ≤ opField w ∧ opField w ≤ 8#4 then .reservedBit else .reservedOpcode

/-- The decoder: the row that selects the word gives its operation (30_encoding.md R39); a word no row selects is
illegal (R42). -/
def decode (w : Word) : Except DecodeError Instr :=
  match opcodeRows.find? (fun r => r.selects w) with
  | some r => .ok (r.op.instr w)
  | none => .error (rejection w)

/-- A command word from its two bytes, least significant byte first (20_memory.md R35). -/
def wordOfBytes (b0 b1 : Byte) : Word := b1 ++ b0

/-- The two bytes of a command word, least significant byte first (20_memory.md R35). -/
def bytesOfWord (w : Word) : List Byte := [w.extractLsb' 0 8, w.extractLsb' 8 8]

/-- The decoder on a serialised command stream: the first command and the bytes after it. -/
def decodeBytes : List Byte → Except DecodeError (Instr × List Byte)
  | b0 :: b1 :: rest =>
    match decode (wordOfBytes b0 b1) with
    | .ok i => .ok (i, rest)
    | .error e => .error e
  | [_] | [] => .error .truncated

/-- The instruction the decoder reads from the bits `w` of an opcode-table row of `nbits` bits (higher bits are 0);
every row of this hardware is one 16-bit word. -/
def decodeTableWord (nbits w : Nat) : Option Instr :=
  if nbits ≤ 16 then
    match decode (BitVec.ofNat 16 (w % 2 ^ nbits)) with
    | .ok i => some i
    | .error _ => none
  else none

/-! ## The encoder, from the "Encoding" line of each operation's rule -/

/-- The command word of an instruction: R45 `0x1000`, R49 `0x2000 + k`, R50 `0x3000 + s`, R56 `0x4000 + p`,
R57 `0x5000 + 4·v + p`, R61 `0x6000 + 16·c + 4·hi + lo`, R64 `0x7000 + pat`, R66 `0x8000 + b`. -/
def encode : Instr → Word
  | .tick => 0x1000#16
  | .update k => BitVec.ofNat 16 (0x2000 + k.num)
  | .active st => BitVec.ofNat 16 (0x3000 + st.code.toNat)
  | .float p => BitVec.ofNat 16 (0x4000 + p.val)
  | .drive p v => BitVec.ofNat 16 (0x5000 + 4 * v.num + p.val)
  | .light hi lo c => BitVec.ofNat 16 (0x6000 + 16 * c.toNat + 4 * hi.val + lo.val)
  | .frame pat => BitVec.ofNat 16 (0x7000 + pat.toNat)
  | .gap b => BitVec.ofNat 16 (0x8000 + b.toNat)

end Sys2Proof
end

