-- ==== Sys2Proof/Config.lean ====
section
/-! DEFINITION. What is fixed when the block is built and what the spec leaves open there (00_scope.md R8;
10_state.md R27). The open parameters are ONE value of type `Params`, carried by the machine's state, so that every
claim about every state is a claim about every legal choice of them. -/

namespace Sys2Proof

/-- STEADY_SRC: which level the steady output of the debounce reports (00_scope.md R8; 41_debounce.md R55). -/
inductive SteadySrc where
  /-- RAW: the level just sampled, the spec's own reading. -/
  | raw
  /-- ACCEPTED: the accepted level `key[k].low`. -/
  | accepted
deriving DecidableEq, Repr

/-- The build parameters of 00_scope.md R8 that have no value there, or two. The bounds are those of R8, so that no
illegal value can be built. -/
structure Params where
  /-- CW, the width in bits of the raw tick counter: OPEN, CW ≥ 1. -/
  cw : Nat
  /-- F_TICK, the tick frequency in Hz: OPEN, F_TICK ≥ 1. -/
  fTick : Nat
  /-- T_SLOT, the nominal length of one time slot in µs: OPEN, greater than 0; no register depends on it. -/
  tSlot : Nat
  /-- STEADY_SRC. -/
  steadySrc : SteadySrc
  cw_pos : 1 ≤ cw
  fTick_pos : 1 ≤ fTick
  tSlot_pos : 0 < tSlot
deriving DecidableEq, Repr

/-- The parameter values that `State.reset` carries: those the worked example of 40_timebase.md R45 and most vectors
of 95_test_vectors.md name (CW = 32, F_TICK = 1 000 000), the spec's default STEADY_SRC = RAW, and T_SLOT = 1 µs.
DESIGN CHOICE, unsafe (log entry 1): the spec gives CW, F_TICK and T_SLOT no value. No definition but `State.reset`
uses it. -/
def Params.reference : Params where
  cw := 32
  fTick := 1000000
  tSlot := 1
  steadySrc := .raw
  cw_pos := by decide
  fTick_pos := by decide
  tSlot_pos := by decide

end Sys2Proof
end

