-- ==== Sys2Proof/Machine/State.lean ====
section
/-! DEFINITION. The state of the machine: the registers of 10_state.md R20, the trace of 00_scope.md R14, the result
of the last operation, and what the owner and the environment hold on the block's input ports (20_memory.md R31). -/

namespace Sys2Proof.Machine

/-! ## Registers -/

/-- The TimeBase registers (10_state.md R21, R22). -/
structure TimeBase where
  /-- `tb.last_raw`, a CW-bit unsigned register. CW is a parameter, so the register is a natural that every
  operation keeps below 2^CW (log entry 8). -/
  lastRaw : Nat
  /-- `tb.total`, 64 bits: the elapsed duration in µs. -/
  total : Micros
deriving DecidableEq, Repr

/-- The registers of one DebouncedButton (10_state.md R23, R24). -/
structure Key where
  /-- `key[k].low`: 1 means the last accepted level is low, that is pressed. -/
  low : Bool
  /-- `key[k].t_last`: `now` of the last accepted transition. -/
  tLast : Micros
deriving DecidableEq, Repr

/-- The four 2-bit pin mode registers (10_state.md R25): they can hold the invalid code 0b01 too (R29). -/
structure Pins where
  p0 : BitVec 2
  p1 : BitVec 2
  p2 : BitVec 2
  p3 : BitVec 2
deriving DecidableEq, Repr

/-! ## What the block shows -/

/-- The three modes of an LED pin: Z = FloatingInput, L = DrivenOutput(LOW), H = DrivenOutput(HIGH)
(30_encoding.md R40). -/
inductive PinMode where
  | z
  | l
  | h
deriving DecidableEq, Repr

/-- The duration of a hold: the symbol T_SLOT, or a number of µs (00_scope.md R14). -/
inductive Duration where
  | slot
  | us (n : Nat)
deriving DecidableEq, Repr

/-- A trace event (00_scope.md R14). -/
inductive Event where
  /-- `pin(p, m)`: LED pin p takes mode m. -/
  | pin (p : Pin) (m : PinMode)
  /-- `hold(d)`: duration d passes with no pin changing. -/
  | hold (d : Duration)
deriving DecidableEq, Repr

/-- The causes of a halt (60_exceptions.md R78). -/
inductive Cause where
  | illegalOp
  | badPinMode
  | badBrightness
  | badPair
  | nowRegressed
  | durationOverflow
deriving DecidableEq, Repr

/-- What an operation returns on a result port (20_memory.md R31; 10_state.md R29 (b)). -/
inductive Result where
  /-- `res_elapsed`, of TICK. -/
  | elapsed (d : Micros)
  /-- `res_state`, of UPDATE. -/
  | state (st : ButtonState)
  /-- `res_active`, of ACTIVE. -/
  | active (a : Bool)
deriving DecidableEq, Repr

/-! ## What stands on the input ports -/

/-- The values the environment and the owner hold on the sampled input ports (20_memory.md R31). -/
structure Ports where
  /-- `RAW`: the platform's tick counter; its low CW bits are the port's value. -/
  raw : Nat
  /-- `BTN[0]`. -/
  btnA : Level
  /-- `BTN[1]`. -/
  btnB : Level
  /-- `now[63:0]`, the operand of UPDATE. -/
  now : Micros
deriving DecidableEq, Repr

/-- One thing the owner does (44_loop_protocol.md R102): it presents a command word, or none (a pause, R76), or
asserts `rst`, while the ports hold the given values. -/
structure Stimulus where
  /-- `rst`. -/
  rst : Bool
  /-- `cmd[15:0]`, when a command is presented. -/
  cmd : Option Word
  ports : Ports
deriving DecidableEq, Repr

/-! ## The state -/

/-- The machine. `tb`, `keyA`, `keyB`, `pins`, `status` are the registers of 10_state.md R20 and all of them. -/
structure State where
  /-- The build parameters (00_scope.md R8); nothing changes them. -/
  params : Params
  tb : TimeBase
  /-- `key[0]`. -/
  keyA : Key
  /-- `key[1]`. -/
  keyB : Key
  /-- `pin[0..3]`. -/
  pins : Pins
  /-- `status`: `halted` = bit 0, `cause` = bits 3:1 (10_state.md R26). -/
  status : BitVec 4
  /-- What the last command returned, or none (10_state.md R29 (b); log entry 5). -/
  result : Option Result
  /-- The trace since reset, oldest event first (00_scope.md R14). -/
  trace : List Event
  /-- The input ports as the current command sees them. -/
  ports : Ports
  /-- What the owner is still to do, in order (log entry 2). -/
  pending : List Stimulus
deriving DecidableEq, Repr

/-- Why a step could stop the machine for good: no reason exists. The spec's one exceptional event is the halt, whose
whole effect and aftermath it gives, and the model takes it as a next state (60_exceptions.md R79 to R82; log
entry 4). Nobody raises a fault; that is safe. -/
inductive Fault where
deriving DecidableEq, Repr

/-- Why a step can be without meaning. -/
inductive Refusal where
  /-- Raised by an arm of `exec` whose instruction has no meaning yet; safe. No arm of this model raises it. -/
  | notModelled (mnemonic : String)
deriving DecidableEq, Repr

/-- What a step answers. -/
abbrev Answer := Host.Outcome State Fault Refusal

/-- The environment at reset, not registers of the block: counter at 0, both pulled-up lines high, `now` 0.
DESIGN CHOICE, unsafe (log entry 7); every command brings its own port values. -/
def Ports.reset : Ports := { raw := 0, btnA := .high, btnB := .high, now := 0#64 }

/-- The machine of the given parameters right after reset: every register at the value of
70_reset_and_hazards.md R91, the trace empty, no result, nothing presented yet. -/
def State.resetWith (p : Params) : State where
  params := p
  tb := { lastRaw := 0, total := 0#64 }
  keyA := { low := false, tLast := 0#64 }
  keyB := { low := false, tLast := 0#64 }
  pins := { p0 := 0b00#2, p1 := 0b00#2, p2 := 0b00#2, p3 := 0b00#2 }
  status := 0#4
  result := none
  trace := []
  ports := Ports.reset
  pending := []

/-- The machine right after reset, at the reference parameters (log entry 1). -/
def State.reset : State := State.resetWith Params.reference

end Sys2Proof.Machine
end

