-- ==== Sys2Proof/Machine/Flags.lean ====
section
/-! DEFINITION. The status register, the only flags of the block (10_state.md R26), its codes (60_exceptions.md R78),
and the predicate `active` (41_debounce.md R50). -/

namespace Sys2Proof.Machine

/-- The 3-bit cause codes of 60_exceptions.md R78. -/
def Cause.code : Cause → BitVec 3
  | .illegalOp => 1#3
  | .badPinMode => 2#3
  | .badBrightness => 3#3
  | .badPair => 4#3
  | .nowRegressed => 5#3
  | .durationOverflow => 6#3

/-- `status` of a block halted with a cause: `cause` in bits 3:1, `halted` = bit 0 = 1 (10_state.md R26). -/
def haltedStatus (c : Cause) : BitVec 4 := c.code ++ 1#1

/-- `status.halted`. -/
def State.halted (s : State) : Bool := s.status.getLsbD 0

/-- `status.cause`. -/
def State.cause (s : State) : BitVec 3 := s.status.extractLsb' 1 3

/-- `active`: true only for Released and Pressed, bit 1 of the code (41_debounce.md R50). -/
def activeBit (st : ButtonState) : Bool := st.code.getLsbD 1

end Sys2Proof.Machine
end

