-- ==== Sys2Proof/Machine/Operands.lean ====
section
/-! DEFINITION. Operand forms: port reads, key select, pin select, the slot and delay tables, and the arithmetic the
operations share (00_scope.md R9, R11, R13; 30_encoding.md R38, R40, R41; 40_timebase.md R46). -/

namespace Sys2Proof.Machine

/-! ## Port reads (00_scope.md R13) -/

/-- `PortRead(RAW)`: the CW-bit value on the port (20_memory.md R32). -/
def State.readRaw (s : State) : Nat := s.ports.raw % 2 ^ s.params.cw

/-- `PortRead(BTN[k])` (20_memory.md R33). -/
def State.readBtn (s : State) : KeySel → Level
  | .a => s.ports.btnA
  | .b => s.ports.btnB

/-- Active-low: a line at level low is a pressed button (30_encoding.md R40). -/
def levelIsLow : Level → Bool
  | .low => true
  | .high => false

/-! ## Key and pin select -/

/-- `key[k]`. -/
def State.key (s : State) : KeySel → Key
  | .a => s.keyA
  | .b => s.keyB

/-- `pin[p]`. -/
def Pins.get (ps : Pins) : Pin → BitVec 2
  | 0 => ps.p0
  | 1 => ps.p1
  | 2 => ps.p2
  | 3 => ps.p3

/-- The pin registers with `pin[p]` replaced. -/
def Pins.set (ps : Pins) (p : Pin) (v : BitVec 2) : Pins :=
  match p with
  | 0 => { ps with p0 := v }
  | 1 => { ps with p1 := v }
  | 2 => { ps with p2 := v }
  | 3 => { ps with p3 := v }

/-- The pin mode codes: bit 1 = output enable, bit 0 = driven level (30_encoding.md R40). -/
def PinMode.code : PinMode → BitVec 2
  | .z => 0b00#2
  | .l => 0b10#2
  | .h => 0b11#2

/-- The spare code of a pin register, which is no mode (10_state.md R29). -/
def invalidPinCode : BitVec 2 := 0b01#2

/-- Some pin register holds the spare code (60_exceptions.md R78, cause 2). -/
def Pins.anyInvalid (ps : Pins) : Bool :=
  ps.p0 == invalidPinCode || ps.p1 == invalidPinCode || ps.p2 == invalidPinCode || ps.p3 == invalidPinCode

/-- The mode DRIVE gives a pin (42_dynamic_pin.md R57). -/
def drivenMode : Level → PinMode
  | .low => .l
  | .high => .h

/-! ## Arithmetic -/

/-- `a -_N b`, unsigned subtraction modulo 2^N (00_scope.md R11). -/
def subMod (n a b : Nat) : Nat := (BitVec.ofNat n a - BitVec.ofNat n b).toNat

/-- `scale(delta) = floor(delta × 1 000 000 / F_TICK)` µs, over the naturals (40_timebase.md R46). -/
def scale (p : Params) (delta : Nat) : Nat := delta * 1000000 / p.fTick

/-- One more than the largest elapsed duration, 2^DW (00_scope.md R9; 40_timebase.md R45). -/
def durationLimit : Nat := 2 ^ 64

/-- DEBOUNCE in µs (00_scope.md R9). -/
def debounceWindow : Nat := 50000

/-! ## Tables -/

/-- The slots of a frame, in order (43_charlieplex.md R64). -/
def slots : List (Fin 12) := [0, 1, 2, 3, 4, 5, 6, 7, 8, 9, 10, 11]

/-- SLOT_PAIR: the (hi, lo) pair of each slot (30_encoding.md R41). -/
def slotPair : Fin 12 → Pin × Pin
  | 0 => (0, 1)
  | 1 => (0, 2)
  | 2 => (0, 3)
  | 3 => (1, 0)
  | 4 => (1, 2)
  | 5 => (1, 3)
  | 6 => (2, 0)
  | 7 => (2, 1)
  | 8 => (2, 3)
  | 9 => (3, 0)
  | 10 => (3, 1)
  | 11 => (3, 2)

/-- DELAY in µs; index 3 is no brightness index (00_scope.md R8; 43_charlieplex.md R66). -/
def interFrameDelay (b : BitVec 2) : Option Nat :=
  if b = 0#2 then some 20000 else if b = 1#2 then some 1000 else if b = 2#2 then some 0 else none

end Sys2Proof.Machine
end

