-- ==== Sys2Proof/Machine/Ops.lean ====
section
/-! DEFINITION. The named operations the meanings are built from: register and trace updates, taking a halt, the
checks common to several operations, and reset (00_scope.md R12 to R15; 60_exceptions.md R78 to R82;
70_reset_and_hazards.md R92). -/

namespace Sys2Proof.Machine

/-! ## Updates -/

/-- The state with new TimeBase registers. -/
def State.setTb (s : State) (tb : TimeBase) : State := { s with tb := tb }

/-- `key[k] <- v`. -/
def State.setKey (s : State) (k : KeySel) (v : Key) : State :=
  match k with
  | .a => { s with keyA := v }
  | .b => { s with keyB := v }

/-- `pin[p] <- v`, the register alone. -/
def State.setPin (s : State) (p : Pin) (v : BitVec 2) : State := { s with pins := s.pins.set p v }

/-- `status <- v`. -/
def State.setStatus (s : State) (v : BitVec 4) : State := { s with status := v }

/-- The state with a result on a result port, or none. -/
def State.setResult (s : State) (r : Option Result) : State := { s with result := r }

/-- An event appended to the trace (00_scope.md R14). -/
def State.emit (s : State) (e : Event) : State := { s with trace := s.trace ++ [e] }

/-- The state with new values on the input ports. -/
def State.setPorts (s : State) (p : Ports) : State := { s with ports := p }

/-- The state with a new list of things the owner is still to do. -/
def State.setPending (s : State) (l : List Stimulus) : State := { s with pending := l }

/-- `PinWrite(p, m)`: `pin[p] <- m`, and the event `pin(p, m)` (00_scope.md R13). -/
def State.pinWrite (s : State) (p : Pin) (m : PinMode) : State := (s.setPin p m.code).emit (.pin p m)

/-- `emit hold(d)`. -/
def State.hold (s : State) (d : Duration) : State := s.emit (.hold d)

/-! ## Taking a halt, and leaving it -/

/-- `raise Halt(c)` (00_scope.md R15; 60_exceptions.md R79): `status` is the only register written, no event is
emitted, no result is returned. -/
def raiseHalt (c : Cause) (s : State) : State := (s.setStatus (haltedStatus c)).setResult none

/-- A reset (70_reset_and_hazards.md R92): every register at its reset value, whatever it held, the trace empty. The
only way out of a halt (60_exceptions.md R81). The build parameters, the input ports and what the owner is still to do
are outside the block and stay. -/
def State.applyReset (s : State) : State :=
  ((State.resetWith s.params).setPorts s.ports).setPending s.pending

/-! ## The checks, in the order of 60_exceptions.md R80 -/

/-- Check (1): a halted block ignores the command, changes no register, emits nothing and returns no result
(60_exceptions.md R82); otherwise the command runs, and what an earlier command returned is no longer shown. -/
def unlessHalted (s : State) (body : State → State) : State :=
  if s.halted then s.setResult none else body (s.setResult none)

/-- Check (3), of the pin operations FLOAT, DRIVE, LIGHT, FRAME, GAP: a pin register holding the spare code halts
the block (60_exceptions.md R78). -/
def unlessBadPin (s : State) (body : State → State) : State :=
  if s.pins.anyInvalid then raiseHalt .badPinMode s else body s

/-- A command word that no row selects (30_encoding.md R42): check (2) of 60_exceptions.md R80. -/
def illegalCommand (s : State) : State := unlessHalted s (raiseHalt .illegalOp)

/-! ## One time slot -/

/-- The body of LIGHT after its checks (43_charlieplex.md R61): one slot is held whatever the condition is; with the
condition true the pair is driven, hi first, before the hold and released, hi first, after it. -/
def lightSlot (hi lo : Pin) (c : Bool) (s : State) : State :=
  if c then
    ((((s.pinWrite hi .h).pinWrite lo .l).hold .slot).pinWrite hi .z).pinWrite lo .z
  else s.hold .slot

/-- The slots of a frame in sequence, each with its pair and its pattern bit (43_charlieplex.md R64). -/
def frameSlots (pat : BitVec 12) (s : State) : State :=
  slots.foldl (fun t n => lightSlot (slotPair n).1 (slotPair n).2 (pat.getLsbD n.val) t) s

end Sys2Proof.Machine
end

