-- ==== Sys2Proof/Machine/Charlieplex.lean ====
section
/-! DEFINITION. The charlieplex family: LIGHT, FRAME and GAP (43_charlieplex.md R61, R64, R66). -/

namespace Sys2Proof.Machine

/-- LIGHT after the checks common to pin operations: hi = lo is checked before the condition. -/
def lightBody (hi lo : Pin) (c : Bool) (s : State) : State :=
  if hi = lo then raiseHalt .badPair s else lightSlot hi lo c s

/-- LIGHT hi, lo, c (43_charlieplex.md R61). -/
def execLight (hi lo : Pin) (c : Bool) (s : State) : Answer :=
  .next (unlessHalted s fun t => unlessBadPin t (lightBody hi lo c))

/-- FRAME pat, the full refresh frame (43_charlieplex.md R64). -/
def execFrame (pat : BitVec 12) (s : State) : Answer :=
  .next (unlessHalted s fun t => unlessBadPin t (frameSlots pat))

/-- GAP after the checks common to pin operations. -/
def gapBody (b : BitVec 2) (s : State) : State :=
  match interFrameDelay b with
  | some d => s.hold (.us d)
  | none => raiseHalt .badBrightness s

/-- GAP b, the inter-frame delay (43_charlieplex.md R66). -/
def execGap (b : BitVec 2) (s : State) : Answer :=
  .next (unlessHalted s fun t => unlessBadPin t (gapBody b))

end Sys2Proof.Machine
end

