-- ==== Sys2Proof/Machine/Debounce.lean ====
section
/-! DEFINITION. The debounce family: UPDATE and ACTIVE (41_debounce.md R49, R50). -/

namespace Sys2Proof.Machine

/-- The edge state of a newly accepted level (41_debounce.md R49). -/
def edgeState (low : Bool) : ButtonState := if low then .pressed else .released

/-- The steady state that reports a level (41_debounce.md R49). -/
def steadyState (low : Bool) : ButtonState := if low then .down else .up

/-- The level the steady output reports: STEADY_SRC (41_debounce.md R49, R55). -/
def steadyLevel (src : SteadySrc) (rawLow acceptedLow : Bool) : Bool :=
  match src with
  | .raw => rawLow
  | .accepted => acceptedLow

/-- UPDATE k once the block is known to be running. -/
def updateBody (k : KeySel) (s : State) : State :=
  if s.ports.now < (s.key k).tLast then raiseHalt .nowRegressed s
  else
    let rawLow := levelIsLow (s.readBtn k)
    let age := s.ports.now.toNat - (s.key k).tLast.toNat
    if rawLow ≠ (s.key k).low ∧ debounceWindow < age then
      (s.setKey k { low := rawLow, tLast := s.ports.now }).setResult (some (.state (edgeState rawLow)))
    else
      s.setResult (some (.state (steadyState (steadyLevel s.params.steadySrc rawLow (s.key k).low))))

/-- UPDATE k, `update(now) -> ButtonState` (41_debounce.md R49). -/
def execUpdate (k : KeySel) (s : State) : Answer := .next (unlessHalted s (updateBody k))

/-- ACTIVE s, the predicate `active()` (41_debounce.md R50). -/
def execActive (st : ButtonState) (s : State) : Answer :=
  .next (unlessHalted s fun t => t.setResult (some (.active (activeBit st))))

end Sys2Proof.Machine
end

