-- ==== Sys2Proof/Machine/DynamicPin.lean ====
section
/-! DEFINITION. The DynamicPin family: FLOAT and DRIVE (42_dynamic_pin.md R56, R57). -/

namespace Sys2Proof.Machine

/-- FLOAT p, `becomeFloatingInput` (42_dynamic_pin.md R56). -/
def execFloat (p : Pin) (s : State) : Answer :=
  .next (unlessHalted s fun t => unlessBadPin t fun u => u.pinWrite p .z)

/-- DRIVE p, v, `becomeDrivenOutput(level)` (42_dynamic_pin.md R57). -/
def execDrive (p : Pin) (v : Level) (s : State) : Answer :=
  .next (unlessHalted s fun t => unlessBadPin t fun u => u.pinWrite p (drivenMode v))

end Sys2Proof.Machine
end

