-- ==== Sys2Proof/Machine/TimeBase.lean ====
section
/-! DEFINITION. The TimeBase family: TICK (40_timebase.md R45). -/

namespace Sys2Proof.Machine

/-- TICK once the block is known to be running. -/
def tickBody (s : State) : State :=
  let raw := s.readRaw
  let delta := subMod s.params.cw raw s.tb.lastRaw
  let sum := s.tb.total.toNat + scale s.params delta
  if durationLimit ≤ sum then raiseHalt .durationOverflow s
  else (s.setTb { lastRaw := raw, total := BitVec.ofNat 64 sum }).setResult (some (.elapsed (BitVec.ofNat 64 sum)))

/-- TICK, `tick(rawCounter) -> elapsedDuration` (40_timebase.md R45). -/
def execTick (s : State) : Answer := .next (unlessHalted s tickBody)

end Sys2Proof.Machine
end

