-- ==== Sys2Proof/Machine/Dispatch.lean ====
section
/-! DEFINITION. One arm per operation of the block (30_encoding.md R39). -/

namespace Sys2Proof.Machine

-- Each arm calls the meaning of its own instruction.
def exec (i : Instr) (s : State) : Host.Outcome State Fault Refusal :=
  match i with
  | .tick => Sys2Proof.Machine.execTick s
  | .update k => Sys2Proof.Machine.execUpdate k s
  | .active st => Sys2Proof.Machine.execActive st s
  | .float p => Sys2Proof.Machine.execFloat p s
  | .drive p v => Sys2Proof.Machine.execDrive p v s
  | .light hi lo c => Sys2Proof.Machine.execLight hi lo c s
  | .frame pat => Sys2Proof.Machine.execFrame pat s
  | .gap b => Sys2Proof.Machine.execGap b s

end Sys2Proof.Machine
end

