-- ==== Sys2Proof/Machine/Fetch.lean ====
section
/-! DEFINITION. How the block answers one thing the owner does, and where the owner's commands wait
(30_encoding.md R37; 44_loop_protocol.md R102; 70_reset_and_hazards.md R92). -/

namespace Sys2Proof.Machine

/-- The block presented with a command word: it decodes and runs it, or halts on an illegal word
(30_encoding.md R39, R42). -/
def runWord (w : Word) (s : State) : Answer :=
  match decode w with
  | .ok i => exec i s
  | .error _ => .next (illegalCommand s)

/-- The block's answer to one stimulus. `rst` resets it and any word presented meanwhile is not accepted
(70_reset_and_hazards.md R92); without a command nothing in the block moves (44_loop_protocol.md R76). -/
def respond (st : Stimulus) (s : State) : Answer :=
  if st.rst then .next (s.setPorts st.ports).applyReset
  else
    match st.cmd with
    | none => .next (s.setPorts st.ports)
    | some w => runWord w (s.setPorts st.ports)

/-- One step of a run: the next thing the owner does. With nothing left to present the block keeps its state
(00_scope.md R17). -/
def stepPending (s : State) : Answer :=
  match s.pending with
  | [] => .next s
  | st :: rest => respond st (s.setPending rest)

/-- The state in which the owner's next command is the word `w`, under the port values that stand there already. -/
def State.presentWord (s : State) (w : Word) : State :=
  s.setPending ({ rst := false, cmd := some w, ports := s.ports } :: s.pending)

end Sys2Proof.Machine
end

