-- ==== Sys2Proof/Machine/Step.lean ====
section
/-! DEFINITION. One step of the machine, and the placing of a word where the next step takes its command. -/

namespace Sys2Proof.Machine

/-- One step: the block answers the next thing the owner does. -/
def step (s : State) : Host.Outcome State Fault Refusal := stepPending s

/-- `s` with the instruction of bits `w` presented as the owner's next command. The block fetches nothing
(10_state.md R28): its program is the owner's command stream, so this is the stream's next entry (log entry 3). -/
def State.withFetchWord (s : State) (nbits w : Nat) : State := s.presentWord (BitVec.ofNat 16 (w % 2 ^ nbits))

end Sys2Proof.Machine
end

