-- ==== Sys2Proof/Machine/Owner.lean ====
section
/-! DEFINITION. The owner's protocol for one loop iteration (44_loop_protocol.md R71, R73 to R75; 30_encoding.md R44),
and scripted sequences of operations, for claims about more than one operation. The block itself checks none of this:
it answers any command at any time. -/

namespace Sys2Proof.Machine

/-- One answer after another. -/
def andThen (a : Answer) (f : State → Answer) : Answer :=
  match a with
  | .next t => f t
  | .fault r => .fault r
  | .refused r => .refused r

/-- The owner issues one command while the ports hold the given values. -/
def issue (i : Instr) (p : Ports) (s : State) : Answer :=
  respond { rst := false, cmd := some (encode i), ports := p } s

/-- The owner issues commands in sequence while the ports hold the given values. -/
def issueAll (p : Ports) : List Instr → State → Answer
  | [], s => .next s
  | i :: is, s => andThen (issue i p s) (issueAll p is)

/-- The other of the two keys. -/
def otherKey : KeySel → KeySel
  | .a => .b
  | .b => .a

/-- What the owner, the environment and the surrounding software decide in one iteration: the counter at the TICK, the
two lines at the two UPDATEs, which key is updated first (either order: 44_loop_protocol.md R74), the ACTIVE commands
of the game update (R71), the pattern and the brightness index of the display phase, and whether its delay comes before
its frame (either order: R75, 92_eei_decisions.md D27). -/
structure Iteration where
  raw : Nat
  btnA : Level
  btnB : Level
  first : KeySel
  actives : List ButtonState
  pat : BitVec 12
  b : BitVec 2
  gapFirst : Bool
deriving DecidableEq, Repr

/-- The port values of one iteration: `now` is the operand of its UPDATEs. -/
def Iteration.ports (x : Iteration) (now : Micros) : Ports := { raw := x.raw, btnA := x.btnA, btnB := x.btnB, now := now }

/-- Button sampling: each key exactly once, in the order the owner chose (44_loop_protocol.md R74). -/
def Iteration.updates (x : Iteration) : List Instr := [.update x.first, .update (otherKey x.first)]

/-- The multiplex drive: one frame and one inter-frame delay, in the order the owner chose (44_loop_protocol.md R75). -/
def Iteration.display (x : Iteration) : List Instr :=
  if x.gapFirst then [.gap x.b, .frame x.pat] else [.frame x.pat, .gap x.b]

/-- The commands of an iteration after its TICK, in the order of its phases (44_loop_protocol.md R71). -/
def Iteration.commands (x : Iteration) : List Instr := x.updates ++ x.actives.map .active ++ x.display

/-- The five commands of `iter PAT, B` (30_encoding.md R44). -/
def iterCommands (pat : BitVec 12) (b : BitVec 2) : List Instr :=
  [.tick, .update .a, .update .b, .frame pat, .gap b]

/-- The commands of an iteration after its TICK, under the given `now`. -/
def afterTick (x : Iteration) (now : Micros) (s : State) : Answer := issueAll (x.ports now) x.commands s

/-- One Active iteration that is not a win display (44_loop_protocol.md R71): the `now` of both UPDATEs is what the
TICK returned (R73). A TICK that returned nothing has halted the block; the owner then has no `now` and the iteration
ends there (log entry 9). -/
def ownerIteration (x : Iteration) (s : State) : Answer :=
  andThen (issue .tick (x.ports s.ports.now) s) fun t =>
    match t.result with
    | some (.elapsed e) => afterTick x e t
    | some (.state _) | some (.active _) | none => .next t

/-- Iterations in sequence; they never overlap (44_loop_protocol.md R70, R71). -/
def ownerRun : List Iteration → State → Answer
  | [], s => .next s
  | x :: xs, s => andThen (ownerIteration x s) (ownerRun xs)

/-- The states after each operation of a script, each operation under its own port values. -/
def trail : List (Instr × Ports) → State → List State
  | [], _ => []
  | x :: xs, s =>
    match exec x.1 (s.setPorts x.2) with
    | .next t => t :: trail xs t
    | .fault _ => []
    | .refused _ => []

/-- One sample of a key: the operand `now` and the level on the key's line. -/
structure Sample where
  now : Micros
  level : Level
deriving DecidableEq, Repr

/-- An UPDATE k under a sample; the other line shows the same level and the counter does not matter. -/
def Sample.command (k : KeySel) (x : Sample) : Instr × Ports :=
  (.update k, { raw := 0, btnA := x.level, btnB := x.level, now := x.now })

/-- The ButtonStates returned along a list of states. -/
def returnedStates (l : List State) : List ButtonState :=
  l.filterMap fun t => match t.result with
    | some (.state st) => some st
    | some (.elapsed _) | some (.active _) | none => none

/-- The elapsed durations returned along a list of states. -/
def returnedElapsed (l : List State) : List Nat :=
  l.filterMap fun t => match t.result with
    | some (.elapsed d) => some d.toNat
    | some (.state _) | some (.active _) | none => none

end Sys2Proof.Machine
end

