-- ==== Sys2Proof/Machine/Assembly.lean ====
section
/-! DEFINITION. The textual form of a command (30_encoding.md R43) and the pseudo-instruction `iter` (R44), as a
function from a line's characters to command words. The numerals are those of 00_scope.md R10. -/

namespace Sys2Proof.Machine

/-- A blank character. -/
def isBlank (c : Char) : Bool := c == ' ' || c == '\t'

/-- A text without its leading and trailing blanks. -/
def trimBlanks (l : List Char) : List Char := ((l.dropWhile isBlank).reverse.dropWhile isBlank).reverse

/-- The pieces of a text between commas. -/
def splitCommas : List Char → List (List Char)
  | [] => [[]]
  | c :: cs =>
    match splitCommas cs with
    | [] => [[c]]
    | p :: ps => if c == ',' then [] :: p :: ps else (c :: p) :: ps

/-- The value of a digit. -/
def digitValue (c : Char) : Option Nat :=
  if '0'.toNat ≤ c.toNat ∧ c.toNat ≤ '9'.toNat then some (c.toNat - '0'.toNat)
  else if 'a'.toNat ≤ c.toNat ∧ c.toNat ≤ 'f'.toNat then some (c.toNat - 'a'.toNat + 10)
  else none

/-- Digits in a base, most significant first. -/
def digitsValue (base : Nat) : List Char → Nat → Option Nat
  | [], acc => some acc
  | c :: cs, acc =>
    match digitValue c with
    | some d => if d < base then digitsValue base cs (acc * base + d) else none
    | none => none

/-- A numeral in a base: at least one digit; `_` only groups digits (00_scope.md R10). -/
def numeralIn (base : Nat) (l : List Char) : Option Nat :=
  match l.filter (· != '_') with
  | [] => none
  | d :: ds => digitsValue base (d :: ds) 0

/-- A numeral: `0x` hexadecimal, `0b` binary, else decimal (00_scope.md R10). -/
def numeral : List Char → Option Nat
  | '0' :: 'x' :: l => numeralIn 16 l
  | '0' :: 'b' :: l => numeralIn 2 l
  | l => numeralIn 10 l

/-- A numeral below a bound. -/
def numeralBelow (bound : Nat) (l : List Char) : Option Nat :=
  (numeral l).filter (· < bound)

/-- `pN`, N ∈ 0..3. -/
def pinName : List Char → Option Pin
  | ['p', '0'] => some 0
  | ['p', '1'] => some 1
  | ['p', '2'] => some 2
  | ['p', '3'] => some 3
  | _ => none

/-- V ∈ {0, 1} or {low, high}. -/
def levelName (l : List Char) : Option Level :=
  if l = "low".toList then some .low else if l = "high".toList then some .high
  else (numeralBelow 2 l).map fun n => Level.ofBit (n == 1)

/-- C ∈ {0, 1}. -/
def conditionName (l : List Char) : Option Bool := (numeralBelow 2 l).map (· == 1)

/-- A key name. -/
def keyName : List Char → Option KeySel
  | ['a'] => some .a
  | ['b'] => some .b
  | _ => none

/-- A ButtonState name. -/
def stateName (l : List Char) : Option ButtonState :=
  if l = "up".toList then some .up else if l = "down".toList then some .down
  else if l = "released".toList then some .released else if l = "pressed".toList then some .pressed else none

/-- PAT ∈ 0..0xFFF. -/
def patternNumeral (l : List Char) : Option (BitVec 12) := (numeralBelow 4096 l).map (BitVec.ofNat 12)

/-- B ∈ 0..3. -/
def brightnessNumeral (l : List Char) : Option (BitVec 2) := (numeralBelow 4 l).map (BitVec.ofNat 2)

/-- The instructions a mnemonic and its operands stand for, by the table of 30_encoding.md R43 and by R44. -/
def assembleOperation (m : List Char) (args : List (List Char)) : Option (List Instr) :=
  match args with
  | [] => if m = "tick".toList then some [.tick] else none
  | [x] =>
    if m = "update".toList then (keyName x).map fun k => [.update k]
    else if m = "active".toList then (stateName x).map fun st => [.active st]
    else if m = "float".toList then (pinName x).map fun p => [.float p]
    else if m = "frame".toList then (patternNumeral x).map fun pat => [.frame pat]
    else if m = "gap".toList then (brightnessNumeral x).map fun b => [.gap b]
    else none
  | [x, y] =>
    if m = "drive".toList then (pinName x).bind fun p => (levelName y).map fun v => [.drive p v]
    else if m = "iter".toList then (patternNumeral x).bind fun pat => (brightnessNumeral y).map fun b => iterCommands pat b
    else none
  | [x, y, z] =>
    if m = "light".toList then
      (pinName x).bind fun hi => (pinName y).bind fun lo => (conditionName z).map fun c => [.light hi lo c]
    else none
  | _ => none

/-- One line: `;` starts a comment, letters are case-insensitive, operands are separated by commas (30_encoding.md
R43). A line with nothing before its comment stands for no command. -/
def assembleInstrs (line : List Char) : Option (List Instr) :=
  match trimBlanks ((line.takeWhile (· != ';')).map Char.toLower) with
  | [] => some []
  | c :: cs =>
    let m := (c :: cs).takeWhile fun d => !isBlank d
    match trimBlanks ((c :: cs).dropWhile fun d => !isBlank d) with
    | [] => assembleOperation m []
    | d :: ds => assembleOperation m ((splitCommas (d :: ds)).map trimBlanks)

/-- The command words of one line. -/
def assemble (line : List Char) : Option (List Word) := (assembleInstrs line).map (·.map encode)

end Sys2Proof.Machine
end

