-- ==== Sys2Proof/Machine/Outputs.lean ====
section
/-! DEFINITION. What the block shows: its output ports as functions of the state (20_memory.md R31, R34), which LED
conducts (42_dynamic_pin.md R59), and how a stretch of trace is read (00_scope.md R14; 43_charlieplex.md R68). -/

namespace Sys2Proof.Machine

/-! ## Output ports -/

/-- `led_oe[3:0]`: `led_oe[p] = pin[p][1]` (20_memory.md R34). -/
def State.ledOe (s : State) : BitVec 4 :=
  s.pins.p3.extractLsb' 1 1 ++ s.pins.p2.extractLsb' 1 1 ++ s.pins.p1.extractLsb' 1 1 ++ s.pins.p0.extractLsb' 1 1

/-- `led_out[3:0]`: `led_out[p] = pin[p][0]`, meaningful only where `led_oe[p]` = 1 (20_memory.md R34). -/
def State.ledOut (s : State) : BitVec 4 :=
  s.pins.p3.extractLsb' 0 1 ++ s.pins.p2.extractLsb' 0 1 ++ s.pins.p1.extractLsb' 0 1 ++ s.pins.p0.extractLsb' 0 1

/-- `res_elapsed[63:0]`, when it is valid (20_memory.md R31). -/
def State.resElapsed (s : State) : Option Micros :=
  match s.result with
  | some (.elapsed d) => some d
  | some (.state _) | some (.active _) | none => none

/-- `res_state[1:0]`, when it is valid (20_memory.md R31). -/
def State.resState (s : State) : Option (BitVec 2) :=
  match s.result with
  | some (.state st) => some st.code
  | some (.elapsed _) | some (.active _) | none => none

/-- `res_active`, when it is valid (20_memory.md R31). -/
def State.resActive (s : State) : Option (BitVec 1) :=
  match s.result with
  | some (.active a) => some (BitVec.ofBool a)
  | some (.elapsed _) | some (.state _) | none => none

/-! ## Which LED conducts -/

/-- LED(i, j) is energised exactly when `pin[i]` = H and `pin[j]` = L (42_dynamic_pin.md R59). -/
def Pins.energised (ps : Pins) (i j : Pin) : Bool := ps.get i == PinMode.h.code && ps.get j == PinMode.l.code

/-! ## Reading a stretch of trace -/

/-- The pin registers after an event. -/
def Pins.afterEvent (ps : Pins) : Event → Pins
  | .pin p m => ps.set p m.code
  | .hold _ => ps

/-- The pin registers after a stretch of trace that begins with `ps`. -/
def Pins.afterEvents (ps : Pins) (seg : List Event) : Pins := seg.foldl Pins.afterEvent ps

/-- The pin registers at every instant of a stretch of trace: before it, and after each of its events. -/
def instants (ps : Pins) : List Event → List Pins
  | [] => [ps]
  | e :: seg => ps :: instants (ps.afterEvent e) seg

/-- The holds of a stretch of trace, in order, each with the pin registers that stand while it lasts. -/
def holds (ps : Pins) : List Event → List (Duration × Pins)
  | [] => []
  | .hold d :: seg => (d, ps) :: holds ps seg
  | .pin p m :: seg => holds (ps.set p m.code) seg

/-- The number of `pin` events of a stretch of trace. -/
def pinEvents (seg : List Event) : Nat :=
  seg.countP fun e => match e with
    | .pin _ _ => true
    | .hold _ => false

/-- The nominal length of a duration in µs (00_scope.md R8, R14). -/
def Duration.nominal (p : Params) : Duration → Nat
  | .slot => p.tSlot
  | .us n => n

/-- The nominal length of a stretch of trace in µs; pin writes cost nothing (43_charlieplex.md R65). -/
def nominalLength (p : Params) : List Event → Nat
  | [] => 0
  | .hold d :: seg => d.nominal p + nominalLength p seg
  | .pin _ _ :: seg => nominalLength p seg

end Sys2Proof.Machine
end

