-- ==== Sys2Proof/Safety.lean ====
section
/-! DEFINITION. What counts as a safe state and a normal run, in the terms the claims use: the legal pin modes
(10_state.md R29), the electrical invariant (43_charlieplex.md R60), the invariant of the registers, a normal end
(44_loop_protocol.md R102), and the state the owner's protocol keeps (44_loop_protocol.md R73). -/

namespace Sys2Proof.Machine

/-- The number of pin registers that hold a code. -/
def Pins.countCode (ps : Pins) (c : BitVec 2) : Nat :=
  (if ps.p0 = c then 1 else 0) + (if ps.p1 = c then 1 else 0) + (if ps.p2 = c then 1 else 0) +
    (if ps.p3 = c then 1 else 0)

/-- Every pin register holds a mode: no pin holds the spare code (10_state.md R29). -/
abbrev Pins.Legal (ps : Pins) : Prop := ∀ p : Pin, ps.get p ≠ invalidPinCode

/-- All four pins are in mode Z. -/
abbrev Pins.AllFloating (ps : Pins) : Prop := ∀ p : Pin, ps.get p = PinMode.z.code

/-- INV, the electrical invariant (43_charlieplex.md R60): at most one pin in mode H, at most one in mode L, every
other pin in mode Z. -/
abbrev Pins.Electrical (ps : Pins) : Prop :=
  ps.countCode PinMode.h.code ≤ 1 ∧ ps.countCode PinMode.l.code ≤ 1 ∧
    ∀ p : Pin, ps.get p = PinMode.h.code ∨ ps.get p = PinMode.l.code ∨ ps.get p = PinMode.z.code

/-- `status` is one the block can show: `cause` is 0 while `halted` = 0 (10_state.md R26), and a cause of the table,
neither 0 nor the reserved 7, while `halted` = 1 (60_exceptions.md R78). -/
abbrev State.StatusLegal (s : State) : Prop :=
  (s.halted = false → s.cause = 0#3) ∧ (s.halted = true → s.cause ≠ 0#3 ∧ s.cause ≠ 7#3)

/-- The invariant of the registers: `tb.last_raw` has CW bits (10_state.md R21), every pin holds a mode (R25, R29),
`status` is legal (R26). -/
structure State.Inv (s : State) : Prop where
  lastRaw_lt : s.tb.lastRaw < 2 ^ s.params.cw
  pins_legal : s.pins.Legal
  status_legal : s.StatusLegal

/-- A run whose end state this is ended normally (60_exceptions.md R82; 44_loop_protocol.md R102). -/
abbrev State.EndedNormally (s : State) : Prop := s.halted = false

/-- What the owner's protocol keeps between iterations (44_loop_protocol.md R71, R73, R102): the block runs, no
timestamp is ahead of the elapsed duration, all pins float. -/
structure State.ProtocolReady (s : State) : Prop where
  running : s.halted = false
  keyA_le : s.keyA.tLast ≤ s.tb.total
  keyB_le : s.keyB.tLast ≤ s.tb.total
  floating : s.pins.AllFloating

/-- What the owner's protocol keeps whatever brightness index and counter reading it is given: all pins float, and the
block is ready for the next iteration or has halted on a brightness index (cause 3) or on the overflow of the total
(cause 6). -/
abbrev State.ProtocolKept (s : State) : Prop :=
  s.pins.AllFloating ∧ (s.ProtocolReady ∨ (s.halted = true ∧ (s.cause = 3#3 ∨ s.cause = 6#3)))

/-- All pins float between operations and no DRIVE is to come: no word that the owner is still to present decodes to one
(42_dynamic_pin.md R57; 43_charlieplex.md R69). -/
structure State.DriveFree (s : State) : Prop where
  floating : s.pins.AllFloating
  no_drive : ∀ st ∈ s.pending, ∀ (w : Word) (p : Pin) (v : Level), st.cmd = some w → decode w ≠ .ok (.drive p v)

/-- A stretch of trace that begins with the pin registers `ps` lights at most one LED: INV holds at every instant, and
in every hold no pin is driven, or exactly one pin is H and exactly one L (43_charlieplex.md R60, R62). -/
structure LightsAtMostOne (ps : Pins) (seg : List Event) : Prop where
  electrical : ∀ qs ∈ instants ps seg, qs.Electrical
  held : ∀ h ∈ holds ps seg, h.2.AllFloating ∨
    ∃ i j : Pin, i ≠ j ∧ h.2.get i = PinMode.h.code ∧ h.2.get j = PinMode.l.code ∧
      ∀ q, q ≠ i → q ≠ j → h.2.get q = PinMode.z.code

/-- The registers of the block (10_state.md R20) are the same in two states. -/
structure SameRegisters (s t : State) : Prop where
  tb : t.tb = s.tb
  keyA : t.keyA = s.keyA
  keyB : t.keyB = s.keyB
  pins : t.pins = s.pins
  status : t.status = s.status

/-- What stands outside the block is the same in two states: the build parameters, the input ports and what the owner
is still to do. -/
structure SameOutside (s t : State) : Prop where
  params : t.params = s.params
  ports : t.ports = s.ports
  pending : t.pending = s.pending

/-- The block has just halted with a cause (60_exceptions.md R79): `status` is the only register that changed, no
event was emitted, no result was returned. -/
structure HaltedWith (s t : State) (c : BitVec 3) : Prop where
  halted : t.halted = true
  cause : t.cause = c
  tb : t.tb = s.tb
  keyA : t.keyA = s.keyA
  keyB : t.keyB = s.keyB
  pins : t.pins = s.pins
  trace : t.trace = s.trace
  result : t.result = none
  outside : SameOutside s t

/-- The code of the halt that a decoded operation raises in a running block, or none: the checks (3) to (5) of
60_exceptions.md R80 in their order, with the conditions of R78. -/
def expectedCause (i : Instr) (s : State) : Option (BitVec 3) :=
  match i with
  | .tick =>
    if 2 ^ 64 ≤ s.tb.total.toNat + scale s.params (subMod s.params.cw s.readRaw s.tb.lastRaw) then some 6#3 else none
  | .update k => if s.ports.now < (s.key k).tLast then some 5#3 else none
  | .active _ => none
  | .float _ | .drive _ _ | .frame _ => if s.pins.Legal then none else some 2#3
  | .light hi lo _ => if s.pins.Legal then (if hi = lo then some 4#3 else none) else some 2#3
  | .gap b => if s.pins.Legal then (if b = 3#2 then some 3#3 else none) else some 2#3

/-- The code of the halt that a command word raises in a running block, or none: decoding is checked before the
operation (60_exceptions.md R80). -/
def expectedWordCause (w : Word) (s : State) : Option (BitVec 3) :=
  match decode w with
  | .error _ => some 1#3
  | .ok i => expectedCause i s

/-- The most events one operation appends to the trace (44_loop_protocol.md R102). -/
def eventBound : Instr → Nat
  | .tick | .update _ | .active _ | .float _ | .drive _ _ | .gap _ => 1
  | .light _ _ _ => 5
  | .frame _ => 60

/-- The operations of the CharlieplexDriver (43_charlieplex.md R62). -/
def isDisplay : Instr → Bool
  | .light _ _ _ | .frame _ | .gap _ => true
  | .tick | .update _ | .active _ | .float _ | .drive _ _ => false

/-- The operations that write a pin directly, outside the CharlieplexDriver (42_dynamic_pin.md R56, R57). -/
def isPinWrite : Instr → Bool
  | .float _ | .drive _ _ => true
  | .tick | .update _ | .active _ | .light _ _ _ | .frame _ | .gap _ => false

/-- The edge states of a sequence of ButtonStates alternate, the first being Pressed when the accepted level before it
is high and Released when it is low (41_debounce.md R51). -/
def edgesAlternate : Bool → List ButtonState → Bool
  | _, [] => true
  | low, .pressed :: l => !low && edgesAlternate true l
  | low, .released :: l => low && edgesAlternate false l
  | low, .up :: l => edgesAlternate low l
  | low, .down :: l => edgesAlternate low l

end Sys2Proof.Machine
end

