-- ==== Sys2Proof/Certificates/Slice0/Obligations.lean ====
section
/-! DEFINITION. The statements for the provers. Each says in its docstring which rule of spec/ it formalises. -/

open Sys2Proof Sys2Proof.Machine

/-! ## Encoding -/

/-- 30_encoding.md R37 to R39: no bit of an encoding is dropped. For every instruction, those included that decode and
then halt on a field (R42), decoding its word gives it back. -/
def Obligations.DecodingAnEncodedInstructionReturnsIt : Prop :=
  ∀ i : Instr, decode (encode i) = .ok i

/-- 30_encoding.md R39: a word has one meaning, and every word that decodes is the encoding of what it decodes to. -/
def Obligations.DecodedWordIsTheInstructionsEncoding : Prop :=
  ∀ (w : Word) (i : Instr), decode w = .ok i → encode i = w

/-- 30_encoding.md R38, R39: a word selects an operation exactly when its bits under the row's mask are the row's
match, its fields are the bits R38 names, and a word that matches no row decodes to nothing. -/
def Obligations.DecoderFollowsTheOpcodeMap : Prop :=
  ∀ w : Word,
    (w &&& 0xFFFF#16 = 0x1000#16 ↔ decode w = .ok .tick) ∧
    (w &&& 0xFFFE#16 = 0x2000#16 ↔ decode w = .ok (.update (if w.getLsbD 0 then .b else .a))) ∧
    (w &&& 0xFFFC#16 = 0x3000#16 ↔
      ∃ st, decode w = .ok (.active st) ∧ st.code.toNat = w.toNat % 4) ∧
    (w &&& 0xFFFC#16 = 0x4000#16 ↔ ∃ p, decode w = .ok (.float p) ∧ p.val = w.toNat % 4) ∧
    (w &&& 0xFFF8#16 = 0x5000#16 ↔
      ∃ p v, decode w = .ok (.drive p v) ∧ p.val = w.toNat % 4 ∧ v.num = w.toNat / 4 % 2) ∧
    (w &&& 0xFFE0#16 = 0x6000#16 ↔
      ∃ hi lo c, decode w = .ok (.light hi lo c) ∧ lo.val = w.toNat % 4 ∧ hi.val = w.toNat / 4 % 4 ∧
        c.toNat = w.toNat / 16 % 2) ∧
    (w &&& 0xF000#16 = 0x7000#16 ↔ ∃ pat, decode w = .ok (.frame pat) ∧ pat.toNat = w.toNat % 4096) ∧
    (w &&& 0xFFFC#16 = 0x8000#16 ↔ ∃ b, decode w = .ok (.gap b) ∧ b.toNat = w.toNat % 4)

/-- 30_encoding.md R39, R43, 95_test_vectors.md: words written out from the spec's patterns decode to the instructions
they stand for. -/
def Obligations.SampleWordsDecodeAsWritten : Prop :=
  decode 0b0001000000000000#16 = .ok .tick ∧
  decode 0b0010000000000001#16 = .ok (.update .b) ∧
  decode 0b0011000000000010#16 = .ok (.active .released) ∧
  decode 0b0100000000000010#16 = .ok (.float 2) ∧
  decode 0b0101000000000110#16 = .ok (.drive 2 .high) ∧
  decode 0b0110000000011000#16 = .ok (.light 2 0 true) ∧
  decode 0b0111100000000001#16 = .ok (.frame 0x801#12) ∧
  decode 0b1000000000000001#16 = .ok (.gap 1#2)

/-- 30_encoding.md R42 (its first sentence): a word is illegal when `op` is 0x0 or 0x9 to 0xF, or when a reserved bit of
`cmd[11:0]` is 1; presented to a running block it halts it with cause 1 and writes nothing else; every other word
decodes and the block runs what it decodes to. The halt on an illegal word is the spec's decision D4. -/
def Obligations.ReservedOpcodesAndBitsHaltAsIllegal : Prop :=
  ∀ (w : Word) (s : State), s.halted = false →
    let op := w.toNat / 4096
    let low := w.toNat % 4096
    let illegal := op = 0 ∨ 9 ≤ op ∨ (op = 1 ∧ 1 ≤ low) ∨ (op = 2 ∧ 2 ≤ low) ∨ (op = 3 ∧ 4 ≤ low) ∨
      (op = 4 ∧ 4 ≤ low) ∨ (op = 5 ∧ 8 ≤ low) ∨ (op = 6 ∧ 32 ≤ low) ∨ (op = 8 ∧ 4 ≤ low)
    (illegal → ∃ t, runWord w s = .next t ∧ HaltedWith s t 1#3) ∧
    (¬ illegal → ∃ i t, decode w = .ok i ∧ exec i s = .next t ∧ runWord w s = .next t)

/-- 30_encoding.md R41: SLOT_PAIR. Its table of pairs and of LIGHT words with c = 1; slot s is the pair (hi, lo) with
hi ≠ lo and s = 3·hi + (lo if lo < hi else lo − 1); every ordered pair of distinct pins is the pair of exactly one slot,
and the pairs with hi = lo are the pair of none. The order is the spec's decision D16. -/
def Obligations.SlotTableIsLexicographicInPairs : Prop :=
  (∀ n : Fin 12, (slotPair n).1 ≠ (slotPair n).2 ∧
    n.val = 3 * (slotPair n).1.val +
      (if (slotPair n).2 < (slotPair n).1 then (slotPair n).2.val else (slotPair n).2.val - 1)) ∧
  (∀ hi lo : Pin, hi ≠ lo → ∃ n : Fin 12, slotPair n = (hi, lo) ∧ ∀ m : Fin 12, slotPair m = (hi, lo) → m = n) ∧
  (∀ (p : Pin) (n : Fin 12), slotPair n ≠ (p, p)) ∧
  (List.finRange 12).map slotPair =
    [(0, 1), (0, 2), (0, 3), (1, 0), (1, 2), (1, 3), (2, 0), (2, 1), (2, 3), (3, 0), (3, 1), (3, 2)] ∧
  (List.finRange 12).map (fun n => encode (.light (slotPair n).1 (slotPair n).2 true)) =
    [0x6011#16, 0x6012#16, 0x6013#16, 0x6014#16, 0x6016#16, 0x6017#16, 0x6018#16, 0x6019#16, 0x601B#16, 0x601C#16,
      0x601D#16, 0x601E#16]

/-! ## One step -/

/-- 30_encoding.md R37, R39, 44_loop_protocol.md R102: when the owner's next command word decodes to i, and `rst` is not
asserted, a step is `exec i` at the state with that command taken from the stream and its port values on the ports. -/
def Obligations.StepRunsTheDecodedCommand : Prop :=
  ∀ (s : State) (st : Stimulus) (rest : List Stimulus) (w : Word) (i : Instr),
    s.pending = st :: rest → st.rst = false → st.cmd = some w → decode w = .ok i →
    step s = exec i ((s.setPending rest).setPorts st.ports)

/-- 30_encoding.md R42, at the step: an illegal word halts a running block with cause 1 and writes nothing else
(the spec's decision D4). -/
def Obligations.StepHaltsOnAnIllegalWord : Prop :=
  ∀ (s : State) (st : Stimulus) (rest : List Stimulus) (w : Word) (e : DecodeError),
    s.pending = st :: rest → st.rst = false → st.cmd = some w → decode w = .error e → s.halted = false →
    ∃ t, step s = .next t ∧ HaltedWith ((s.setPending rest).setPorts st.ports) t 1#3

/-- 70_reset_and_hazards.md R92 with the values of R91 (the spec's decision D22): `rst` puts every register at its reset
value, whatever the state was and whatever word stands on `cmd`, empties the trace and leaves a running block. That the
build parameters, the input ports and the rest of the owner's stream are outside the reset is the model's choice (log
entries 1, 2, 7), and so is that a reset leaves no result (log entry 5). -/
def Obligations.ResetRequestRestoresEveryRegister : Prop :=
  ∀ (s : State) (st : Stimulus) (rest : List Stimulus), s.pending = st :: rest → st.rst = true →
    ∃ t, step s = .next t ∧
      t.tb.lastRaw = 0 ∧ t.tb.total = 0#64 ∧ t.keyA = { low := false, tLast := 0#64 } ∧
      t.keyB = { low := false, tLast := 0#64 } ∧ (∀ p : Pin, t.pins.get p = 0b00#2) ∧
      t.halted = false ∧ t.cause = 0#3 ∧ t.trace = [] ∧ t.result = none ∧
      t.params = s.params ∧ t.ports = st.ports ∧ t.pending = rest

/-- 44_loop_protocol.md R76, 60_exceptions.md R87, 00_scope.md R17: with no command presented the block's registers, its
trace and its result stay as they are, and with nothing left to present a step changes nothing at all (log entry 2). -/
def Obligations.PauseLeavesTheBlockUnchanged : Prop :=
  (∀ s : State, s.pending = [] → step s = .next s) ∧
  (∀ (s : State) (st : Stimulus) (rest : List Stimulus), s.pending = st :: rest → st.rst = false → st.cmd = none →
    ∃ t, step s = .next t ∧ SameRegisters s t ∧ t.trace = s.trace ∧ t.result = s.result ∧ t.params = s.params ∧
      t.ports = st.ports ∧ t.pending = rest)

/-- 44_loop_protocol.md R102: every operation terminates and the block has no stuck state. The halt is a next state in
this model (log entry 4). -/
def Obligations.EveryStepAnswersANextState : Prop :=
  ∀ s : State, ∃ t, step s = .next t

/-! ## Reset values and invariants -/

/-- 70_reset_and_hazards.md R91: the reset value of every register and the empty trace, whatever the build parameters
are. The values are the spec's decision D22. -/
def Obligations.ResetValuesAreTheTables : Prop :=
  ∀ p : Params, let s := State.resetWith p
    s.tb.total = 0#64 ∧ s.tb.lastRaw = 0 ∧ s.keyA.low = false ∧ s.keyB.low = false ∧ s.keyA.tLast = 0#64 ∧
    s.keyB.tLast = 0#64 ∧ (∀ q : Pin, s.pins.get q = PinMode.z.code) ∧ s.halted = false ∧ s.cause = 0#3 ∧
    s.trace = []

/-- 10_state.md R21, R25, R26, R29 hold of the reset state. -/
def Obligations.ResetMeetsTheRegisterInvariant : Prop :=
  (∀ p : Params, (State.resetWith p).Inv) ∧ State.reset.Inv

/-- 10_state.md R21 (CW bits), R25 and R29 (no pin ever holds the spare code), R26 with 60_exceptions.md R78 (`cause` is
0 while running and a cause of the table while halted): kept by every step, from every state that has it. -/
def Obligations.EveryStepKeepsTheRegisterInvariant : Prop :=
  ∀ s t : State, s.Inv → step s = .next t → t.Inv

/-- 10_state.md R27: the build parameters never change while the block runs, reset included. -/
def Obligations.BuildParametersNeverChange : Prop :=
  ∀ (k : Nat) (s t : State), Host.Core.run Sys2Proof.core k s = .next t → t.params = s.params

/-! ## TimeBase -/

/-- 40_timebase.md R45, with 00_scope.md R11: TICK reads the counter, adds the scaled modular delta to the total and
returns it; when the sum does not fit in 64 bits it halts with cause 6 and writes nothing else. The premise on
`tb.last_raw` is its width (10_state.md R21), kept by `EveryStepKeepsTheRegisterInvariant`. The overflow halt is the
spec's decision D8. -/
def Obligations.TickAddsTheScaledModularDelta : Prop :=
  decode 0x1000#16 = .ok .tick ∧
  ∀ s : State, s.halted = false → s.tb.lastRaw < 2 ^ s.params.cw →
    let raw := s.ports.raw % 2 ^ s.params.cw
    let delta := if s.tb.lastRaw ≤ raw then raw - s.tb.lastRaw else raw + 2 ^ s.params.cw - s.tb.lastRaw
    let sum := s.tb.total.toNat + delta * 1000000 / s.params.fTick
    (sum < 2 ^ 64 → ∃ t, exec .tick s = .next t ∧ t.tb.lastRaw = raw ∧ t.tb.total.toNat = sum ∧
      t.resElapsed = some t.tb.total ∧ t.keyA = s.keyA ∧ t.keyB = s.keyB ∧ t.pins = s.pins ∧ t.status = s.status ∧
      t.trace = s.trace ∧ SameOutside s t) ∧
    (2 ^ 64 ≤ sum → ∃ t, exec .tick s = .next t ∧ HaltedWith s t 6#3)

/-- 40_timebase.md R46: `scale` is floor(delta × 1 000 000 / F_TICK), and the laws a model may rely on whatever F_TICK
is. The unit and the rounding are the spec's decisions D5 and D6. -/
def Obligations.ScaleIsExactFloorWithItsLaws : Prop :=
  ∀ p : Params,
    (∀ x, scale p x = x * 1000000 / p.fTick) ∧ scale p 0 = 0 ∧ (∀ x y, x ≤ y → scale p x ≤ scale p y) ∧
    (∀ x, scale p x * p.fTick ≤ x * 1000000 ∧ x * 1000000 < (scale p x + 1) * p.fTick) ∧
    (∀ x y, scale p x + scale p y ≤ scale p (x + y)) ∧
    (p.fTick = 1000000 → ∀ x, scale p x = x) ∧
    (p.fTick = 6000000 → scale p 13 = 2 ∧ scale p 5 = 0 ∧ scale p 6 = 1 ∧ scale p 6000000 = 1000000) ∧
    (p.fTick = 32768 → scale p 1 = 30 ∧ scale p 32768 = 1000000 ∧ scale p 3 = 91) ∧
    (p.fTick = 48000000 → scale p (2 ^ 32 - 1) = 89478485)

/-- 40_timebase.md R47: for every sequence of TICKs from any running state and every sequence of counter readings, the
results are non-decreasing (and never below the total they start from); and `tb.total` never decreases between any
two instants short of reset. -/
def Obligations.ElapsedDurationNeverDecreases : Prop :=
  (∀ (s : State) (readings : List Ports), s.halted = false →
    List.Pairwise (· ≤ ·) (s.tb.total.toNat :: returnedElapsed (trail (readings.map fun p => (.tick, p)) s))) ∧
  (∀ (k : Nat) (s t : State), (∀ st ∈ s.pending, st.rst = false) → Host.Core.run Sys2Proof.core k s = .next t →
    s.tb.total ≤ t.tb.total)

/-- 40_timebase.md R48 (and 70_reset_and_hazards.md R94): let c be the true count of ticks at the last TICK and n the true
number of ticks since. TICK adds `scale (n mod 2^CW)`: all of it when fewer than 2^CW ticks passed, and what it drops is
whole counter periods. -/
def Obligations.TickDropsWholeCounterPeriods : Prop :=
  ∀ (s : State) (c n : Nat), s.halted = false → s.tb.lastRaw = c % 2 ^ s.params.cw → s.ports.raw = c + n →
    s.tb.total.toNat + scale s.params (n % 2 ^ s.params.cw) < 2 ^ 64 →
    ∃ t, exec .tick s = .next t ∧ t.halted = false ∧
      t.tb.total.toNat = s.tb.total.toNat + scale s.params (n % 2 ^ s.params.cw) ∧
      t.tb.lastRaw = (c + n) % 2 ^ s.params.cw ∧
      (n < 2 ^ s.params.cw → t.tb.total.toNat = s.tb.total.toNat + scale s.params n)

/-- 70_reset_and_hazards.md R100: a delta too small for `scale` to see adds nothing and is still consumed. -/
def Obligations.SubMicrosecondTickIsLost : Prop :=
  ∀ (s : State) (d : Nat), s.halted = false → s.tb.lastRaw + d < 2 ^ s.params.cw → s.ports.raw = s.tb.lastRaw + d →
    d * 1000000 < s.params.fTick →
    ∃ t, exec .tick s = .next t ∧ t.tb.total = s.tb.total ∧ t.tb.lastRaw = s.tb.lastRaw + d ∧
      t.resElapsed = some s.tb.total

/-! ## Debounce -/

/-- 41_debounce.md R49: UPDATE k. A `now` before the stored timestamp halts with cause 5; a level that differs from the
accepted one more than 50 000 µs after the last accepted transition is accepted, recorded with `now` and reported as
Pressed (0b11) or Released (0b10); otherwise nothing is written and Down (0b01) or Up (0b00) reports the level
STEADY_SRC selects. Nothing else changes. The halt is the spec's decision D10, the reading of the steady output D9. -/
def Obligations.UpdateFollowsTheDebounceAlgorithm : Prop :=
  decode 0x2000#16 = .ok (.update .a) ∧ decode 0x2001#16 = .ok (.update .b) ∧
  ∀ (s : State) (k : KeySel), s.halted = false →
    let rawLow := decide (s.readBtn k = .low)
    let rep := match s.params.steadySrc with
      | .raw => rawLow
      | .accepted => (s.key k).low
    (s.ports.now < (s.key k).tLast → ∃ t, exec (.update k) s = .next t ∧ HaltedWith s t 5#3) ∧
    ((s.key k).tLast ≤ s.ports.now → rawLow ≠ (s.key k).low → 50000 < s.ports.now.toNat - (s.key k).tLast.toNat →
      ∃ t, exec (.update k) s = .next t ∧ t.key k = { low := rawLow, tLast := s.ports.now } ∧
        t.resState = some (if rawLow then 0b11#2 else 0b10#2) ∧ (∀ j, j ≠ k → t.key j = s.key j) ∧ t.tb = s.tb ∧
        t.pins = s.pins ∧ t.status = s.status ∧ t.trace = s.trace ∧ SameOutside s t) ∧
    ((s.key k).tLast ≤ s.ports.now →
      (rawLow = (s.key k).low ∨ s.ports.now.toNat - (s.key k).tLast.toNat ≤ 50000) →
      ∃ t, exec (.update k) s = .next t ∧ t.resState = some (if rep then 0b01#2 else 0b00#2) ∧ SameRegisters s t ∧
        t.trace = s.trace ∧ SameOutside s t)

/-- 41_debounce.md R50: ACTIVE s returns bit 1 of s, reads no register and no port, writes nothing, emits nothing and
does not fault. -/
def Obligations.ActiveIsTrueOfEdgeStatesOnly : Prop :=
  decode 0x3000#16 = .ok (.active .up) ∧ decode 0x3001#16 = .ok (.active .down) ∧
  decode 0x3002#16 = .ok (.active .released) ∧ decode 0x3003#16 = .ok (.active .pressed) ∧
  ∀ (s : State) (st : ButtonState), s.halted = false →
    ∃ t, exec (.active st) s = .next t ∧
      t.resActive = some (if st = .released ∨ st = .pressed then 1#1 else 0#1) ∧ SameRegisters s t ∧
      t.trace = s.trace ∧ SameOutside s t

/-- 41_debounce.md R51: UPDATE k returns an edge state exactly when it writes `key[k]`, Pressed exactly when the new
accepted level is low; and along any sequence of UPDATEs of one key, whatever their inputs, the edge states alternate,
beginning with Pressed when the accepted level is high. -/
def Obligations.EdgeStatesAlternateOnePerAcceptedTransition : Prop :=
  (∀ (s t : State) (k : KeySel), s.halted = false → exec (.update k) s = .next t →
    ((t.resState = some 0b11#2 ↔ t.key k ≠ s.key k ∧ (t.key k).low = true) ∧
      (t.resState = some 0b10#2 ↔ t.key k ≠ s.key k ∧ (t.key k).low = false))) ∧
  (∀ (k : KeySel) (l : List Sample) (s : State), s.halted = false →
    edgesAlternate (s.key k).low (returnedStates (trail (l.map (Sample.command k)) s)) = true)

/-- 41_debounce.md R52: after UPDATE k accepted at T, no UPDATE k with `now` ≤ T + 50 000 accepts, whatever the line does:
`key[k]` is unchanged throughout and no edge state is returned. -/
def Obligations.NoTransitionIsAcceptedInTheLockout : Prop :=
  ∀ (k : KeySel) (l : List Sample) (s : State), s.halted = false →
    (∀ x ∈ l, x.now.toNat ≤ (s.key k).tLast.toNat + 50000) →
    ∀ t ∈ trail (l.map (Sample.command k)) s, t.key k = s.key k ∧ t.resState ≠ some 0b10#2 ∧ t.resState ≠ some 0b11#2

/-- 41_debounce.md R53: a level that differs from the accepted one and stays gives steady states up to T + 50 000, one
edge state at the first UPDATE after it, then the steady state of the new level, under either STEADY_SRC. -/
def Obligations.SustainedLevelGivesOneEdgeThenSteady : Prop :=
  ∀ (k : KeySel) (lvl : Level) (early late : List Sample) (x : Sample) (s : State), s.halted = false →
    decide (lvl = .low) ≠ (s.key k).low →
    (∀ y ∈ early, y.level = lvl ∧ (s.key k).tLast ≤ y.now ∧ y.now.toNat ≤ (s.key k).tLast.toNat + 50000) →
    x.level = lvl → (s.key k).tLast.toNat + 50000 < x.now.toNat →
    (∀ y ∈ late, y.level = lvl ∧ x.now ≤ y.now) →
    let newLow := decide (lvl = .low)
    let before : ButtonState :=
      if (match s.params.steadySrc with | .raw => newLow | .accepted => (s.key k).low) then .down else .up
    returnedStates (trail ((early ++ x :: late).map (Sample.command k)) s) =
      List.replicate early.length before ++
        (if newLow then .pressed else .released) :: List.replicate late.length (if newLow then .down else .up)

/-- 41_debounce.md R54: UPDATE k leaves the other key's registers, and its own result and registers depend on nothing but
`key[k]`, `BTN[k]`, `now`, STEADY_SRC and whether the block runs. -/
def Obligations.KeysAreIndependent : Prop :=
  (∀ (s t : State) (k j : KeySel), j ≠ k → exec (.update k) s = .next t → t.key j = s.key j) ∧
  (∀ (s s' t t' : State) (k : KeySel), s'.key k = s.key k → s'.readBtn k = s.readBtn k → s'.ports.now = s.ports.now →
    s'.params.steadySrc = s.params.steadySrc → s'.halted = s.halted → exec (.update k) s = .next t →
    exec (.update k) s' = .next t' → t'.key k = t.key k ∧ t'.result = t.result ∧ t'.halted = t.halted)

/-- 41_debounce.md R55: the two values of STEADY_SRC never differ in an edge state or in a register; they differ only in
a steady output, and only while the sampled level is not the accepted one. The parameter is the spec's decision D9. -/
def Obligations.SteadySourceChangesSteadyOutputOnly : Prop :=
  ∀ (s t t' : State) (k : KeySel) (p : Params), exec (.update k) s = .next t →
    exec (.update k) { s with params := p } = .next t' →
    SameRegisters t t' ∧
      (t'.resState ≠ t.resState →
        (t.resState = some 0b00#2 ∨ t.resState = some 0b01#2) ∧
        (t'.resState = some 0b00#2 ∨ t'.resState = some 0b01#2) ∧
        decide (s.readBtn k = .low) ≠ (s.key k).low ∧ p.steadySrc ≠ s.params.steadySrc)

/-- 44_loop_protocol.md R74: the order of the two UPDATEs of an iteration changes nothing in the block, and each key's
result is the same in both orders. -/
def Obligations.OrderOfTheTwoUpdatesIsIrrelevant : Prop :=
  ∀ s : State, s.halted = false → s.keyA.tLast ≤ s.ports.now → s.keyB.tLast ≤ s.ports.now →
    ∃ a ab b ba, exec (.update .a) s = .next a ∧ exec (.update .b) a = .next ab ∧ exec (.update .b) s = .next b ∧
      exec (.update .a) b = .next ba ∧ SameRegisters ab ba ∧ ab.trace = ba.trace ∧ a.resState = ba.resState ∧
      ab.resState = b.resState

/-- 70_reset_and_hazards.md R97: after reset no UPDATE with `now` ≤ 50 000 accepts, whatever the line shows. -/
def Obligations.NoTransitionIsAcceptedSoonAfterReset : Prop :=
  ∀ (p : Params) (k : KeySel) (ports : Ports), ports.now.toNat ≤ 50000 →
    ∃ t, exec (.update k) ((State.resetWith p).setPorts ports) = .next t ∧
      SameRegisters (State.resetWith p) t ∧ (t.resState = some 0b00#2 ∨ t.resState = some 0b01#2)

/-! ## DynamicPin -/

/-- 42_dynamic_pin.md R56: FLOAT p puts pin p in mode Z and emits `pin(p, Z)`, whatever mode it had; other pins and all
other registers are untouched; a pin register holding the spare code 0b01 halts it with cause 2. -/
def Obligations.FloatReleasesOnePin : Prop :=
  (∀ p : Pin, decode (BitVec.ofNat 16 (0x4000 + p.val)) = .ok (.float p)) ∧
  ∀ (s : State) (p : Pin), s.halted = false →
    ((∀ q : Pin, s.pins.get q ≠ 0b01#2) →
      ∃ t, exec (.float p) s = .next t ∧ t.pins.get p = 0b00#2 ∧ (∀ q, q ≠ p → t.pins.get q = s.pins.get q) ∧
        t.trace = s.trace ++ [.pin p .z] ∧ t.result = none ∧ t.tb = s.tb ∧ t.keyA = s.keyA ∧ t.keyB = s.keyB ∧
        t.status = s.status ∧ SameOutside s t) ∧
    ((∃ q : Pin, s.pins.get q = 0b01#2) → ∃ t, exec (.float p) s = .next t ∧ HaltedWith s t 2#3)

/-- 42_dynamic_pin.md R57: DRIVE p, v puts pin p in mode H (v = HIGH, code 0b11) or L (0b10) in one step and emits the
event; other pins and all other registers are untouched; a pin register holding 0b01 halts it with cause 2. -/
def Obligations.DriveSetsOnePin : Prop :=
  (∀ (p : Pin) (v : Level), decode (BitVec.ofNat 16 (0x5000 + 4 * v.num + p.val)) = .ok (.drive p v)) ∧
  ∀ (s : State) (p : Pin) (v : Level), s.halted = false →
    ((∀ q : Pin, s.pins.get q ≠ 0b01#2) →
      ∃ t, exec (.drive p v) s = .next t ∧ t.pins.get p = (if v = .high then 0b11#2 else 0b10#2) ∧
        (∀ q, q ≠ p → t.pins.get q = s.pins.get q) ∧
        t.trace = s.trace ++ [.pin p (if v = .high then .h else .l)] ∧ t.result = none ∧ t.tb = s.tb ∧
        t.keyA = s.keyA ∧ t.keyB = s.keyB ∧ t.status = s.status ∧ SameOutside s t) ∧
    ((∃ q : Pin, s.pins.get q = 0b01#2) → ∃ t, exec (.drive p v) s = .next t ∧ HaltedWith s t 2#3)

/-- 20_memory.md R34: `led_oe[p] = pin[p][1]` and `led_out[p] = pin[p][0]`, for each p. -/
def Obligations.LedOutputsAreThePinBits : Prop :=
  ∀ (s : State) (p : Pin),
    s.ledOe.getLsbD p.val = (s.pins.get p).getLsbD 1 ∧ s.ledOut.getLsbD p.val = (s.pins.get p).getLsbD 0

/-- 20_memory.md R34, R36 (c): along every operation the pin registers and the trace tell the same story: what was
appended to the trace, replayed from the old pin registers, gives the new ones; and the operation appends no more
events than 44_loop_protocol.md R102 says. -/
def Obligations.TraceTellsThePinRegisters : Prop :=
  ∀ (i : Instr) (s t : State), exec i s = .next t →
    ∃ seg, t.trace = s.trace ++ seg ∧ t.pins = s.pins.afterEvents seg ∧ seg.length ≤ eventBound i

/-! ## CharlieplexDriver -/

/-- 43_charlieplex.md R60: under INV at most one LED is energised; FLOAT keeps INV; DRIVE can break it. -/
def Obligations.InvariantLightsAtMostOneLed : Prop :=
  (∀ (ps : Pins) (i j i' j' : Pin), ps.Electrical → ps.energised i j = true → ps.energised i' j' = true →
    i' = i ∧ j' = j) ∧
  (∀ (s t : State) (p : Pin), s.pins.Electrical → exec (.float p) s = .next t → t.pins.Electrical) ∧
  (∃ (s t : State) (p : Pin) (v : Level), s.pins.Electrical ∧ exec (.drive p v) s = .next t ∧ ¬ t.pins.Electrical)

/-- 43_charlieplex.md R61: LIGHT hi, lo, c. The checks: a pin register holding 0b01 halts with cause 2; then hi = lo
halts with cause 4, whatever c is. With c false one slot is held and no pin is touched; with c true the pair is driven,
hi first, one slot is held, the pair is released, hi first, and ends in mode Z. The other two pins and every other
register stay. The order of the two releases is the spec's decision D14, the halt on hi = lo D15. -/
def Obligations.LightHoldsOneSlot : Prop :=
  (∀ (hi lo : Pin) (c : Bool),
    decode (BitVec.ofNat 16 (0x6000 + 16 * c.toNat + 4 * hi.val + lo.val)) = .ok (.light hi lo c)) ∧
  ∀ (s : State) (hi lo : Pin) (c : Bool), s.halted = false →
    ((∃ q : Pin, s.pins.get q = 0b01#2) → ∃ t, exec (.light hi lo c) s = .next t ∧ HaltedWith s t 2#3) ∧
    ((∀ q : Pin, s.pins.get q ≠ 0b01#2) → hi = lo → ∃ t, exec (.light hi lo c) s = .next t ∧ HaltedWith s t 4#3) ∧
    ((∀ q : Pin, s.pins.get q ≠ 0b01#2) → hi ≠ lo →
      ∃ t, exec (.light hi lo c) s = .next t ∧
        (c = false → t.trace = s.trace ++ [.hold .slot] ∧ t.pins = s.pins) ∧
        (c = true → t.trace = s.trace ++ [.pin hi .h, .pin lo .l, .hold .slot, .pin hi .z, .pin lo .z] ∧
          t.pins.get hi = 0b00#2 ∧ t.pins.get lo = 0b00#2 ∧
          ∀ q, q ≠ hi → q ≠ lo → t.pins.get q = s.pins.get q) ∧
        t.result = none ∧ t.tb = s.tb ∧ t.keyA = s.keyA ∧ t.keyB = s.keyB ∧ t.status = s.status ∧ SameOutside s t)

/-- 43_charlieplex.md R63: LIGHT with c = 1, entered with all pins Z, energises exactly LED(hi, lo) and no other, for one
slot. -/
def Obligations.LightEnergisesExactlyItsLed : Prop :=
  ∀ (s : State) (hi lo : Pin), s.halted = false → s.pins.AllFloating → hi ≠ lo →
    ∃ t seg ps, exec (.light hi lo true) s = .next t ∧ t.trace = s.trace ++ seg ∧ holds s.pins seg = [(.slot, ps)] ∧
      ∀ i j : Pin, ps.energised i j = true ↔ i = hi ∧ j = lo

/-- 43_charlieplex.md R62: LIGHT, FRAME and GAP, entered with all four pins in mode Z, keep INV at every instant and
return the pins to all Z. -/
def Obligations.DisplayOperationsKeepTheInvariant : Prop :=
  ∀ (i : Instr) (s t : State), isDisplay i = true → s.pins.AllFloating → exec i s = .next t →
    t.pins.AllFloating ∧ ∃ seg, t.trace = s.trace ++ seg ∧ ∀ ps ∈ instants s.pins seg, ps.Electrical

/-- 43_charlieplex.md R62, with 00_scope.md's one-LED promise: in the trace of any sequence of operations from reset among
which no FLOAT and no DRIVE stands, INV holds at every instant and every hold has either no pin driven or exactly one
H pin and one L pin. -/
def Obligations.AtMostOneLedIsEverEnergisedFromReset : Prop :=
  ∀ (p : Params) (l : List (Instr × Ports)), (∀ x ∈ l, isPinWrite x.1 = false) →
    ∀ t ∈ trail l (State.resetWith p),
      t.pins.AllFloating ∧
      (∀ ps ∈ instants (State.resetWith p).pins t.trace, ps.Electrical) ∧
      (∀ h ∈ holds (State.resetWith p).pins t.trace, h.2.AllFloating ∨
        ∃ i j : Pin, i ≠ j ∧ h.2.get i = PinMode.h.code ∧ h.2.get j = PinMode.l.code ∧
          ∀ q, q ≠ i → q ≠ j → h.2.get q = PinMode.z.code)

/-- 43_charlieplex.md R64, with the slot table of 30_encoding.md R41 written out: FRAME pat is exactly the twelve LIGHTs
in slot order, each with its pattern bit; a pin register holding 0b01 halts it with cause 2, and otherwise it completes
and writes nothing but pin registers and the trace. The slot order is the spec's decision D16. -/
def Obligations.FrameIsTwelveLightsInSlotOrder : Prop :=
  (∀ pat : BitVec 12, decode (BitVec.ofNat 16 (0x7000 + pat.toNat)) = .ok (.frame pat)) ∧
  (∀ (s : State) (pat : BitVec 12),
    exec (.frame pat) s =
      [(0, 1, 0), (0, 2, 1), (0, 3, 2), (1, 0, 3), (1, 2, 4), (1, 3, 5), (2, 0, 6), (2, 1, 7), (2, 3, 8), (3, 0, 9),
        (3, 1, 10), (3, 2, 11)].foldl
        (fun (a : Answer) (x : Pin × Pin × Nat) => andThen a (exec (.light x.1 x.2.1 (pat.getLsbD x.2.2)))) (.next s)) ∧
  (∀ (s : State) (pat : BitVec 12), s.halted = false →
    ((∃ q : Pin, s.pins.get q = 0b01#2) → ∃ t, exec (.frame pat) s = .next t ∧ HaltedWith s t 2#3) ∧
    ((∀ q : Pin, s.pins.get q ≠ 0b01#2) → ∃ t, exec (.frame pat) s = .next t ∧ t.result = none ∧ t.tb = s.tb ∧
      t.keyA = s.keyA ∧ t.keyB = s.keyB ∧ t.status = s.status ∧ SameOutside s t ∧
      ∀ q : Pin, t.pins.get q = s.pins.get q ∨ t.pins.get q = 0b00#2))

/-- 43_charlieplex.md R65: every FRAME emits exactly twelve `hold(T_SLOT)` and no other hold, whatever the pattern, so its
nominal length is 12 × T_SLOT. -/
def Obligations.FramePeriodIsContentIndependent : Prop :=
  ∀ (s : State) (pat : BitVec 12), s.halted = false → s.pins.Legal →
    ∃ t seg, exec (.frame pat) s = .next t ∧ t.trace = s.trace ++ seg ∧
      (holds s.pins seg).map Prod.fst = List.replicate 12 Duration.slot ∧
      nominalLength s.params seg = 12 * s.params.tSlot

/-- 43_charlieplex.md R66: GAP b holds 20 000, 1 000 or 0 µs for b = 0, 1, 2, the zero hold an event too, and touches no
register; b = 3 halts with cause 3, after the check of the pin registers (cause 2). That the gap is an
operation of its own is the spec's decision D19. -/
def Obligations.GapHoldsTheDelayOfTheIndex : Prop :=
  (∀ b : BitVec 2, decode (BitVec.ofNat 16 (0x8000 + b.toNat)) = .ok (.gap b)) ∧
  ∀ (s : State) (b : BitVec 2), s.halted = false →
    ((∃ q : Pin, s.pins.get q = 0b01#2) → ∃ t, exec (.gap b) s = .next t ∧ HaltedWith s t 2#3) ∧
    ((∀ q : Pin, s.pins.get q ≠ 0b01#2) → b = 3#2 → ∃ t, exec (.gap b) s = .next t ∧ HaltedWith s t 3#3) ∧
    ((∀ q : Pin, s.pins.get q ≠ 0b01#2) → b ≠ 3#2 →
      ∃ t d, exec (.gap b) s = .next t ∧ t.trace = s.trace ++ [.hold (.us d)] ∧ (b = 0#2 → d = 20000) ∧
        (b = 1#2 → d = 1000) ∧ (b = 2#2 → d = 0) ∧ t.result = none ∧ SameRegisters s t ∧ SameOutside s t)

/-- 43_charlieplex.md R67: when the owner's indices follow b ← (b + 1) mod 3 from 0, the delays are 20 000, 1 000, 0 and
20 000 µs again. -/
def Obligations.BrightnessCycleReturnsToItsDelay : Prop :=
  ∀ s : State, s.halted = false → s.pins.Legal →
    ∃ t0 t1 t2 t3, exec (.gap 0#2) s = .next t0 ∧ exec (.gap 1#2) t0 = .next t1 ∧ exec (.gap 2#2) t1 = .next t2 ∧
      exec (.gap 0#2) t2 = .next t3 ∧
      t3.trace = s.trace ++ [.hold (.us 20000), .hold (.us 1000), .hold (.us 0), .hold (.us 20000)] ∧
      SameRegisters s t3

/-- 43_charlieplex.md R68: the trace of FRAME pat then GAP b, entered with all pins Z: thirteen holds; four pin events for
each set bit, two before and two after the hold of its slot, and nowhere else; in the hold of slot n exactly
LED(SLOT_PAIR[n]) energised if its bit is set and none if not; none in the last hold; all pins Z at the end. The slot
order is the spec's decision D16, the order of the releases D14. -/
def Obligations.FrameThenGapTraceShowsThePattern : Prop :=
  ∀ (s : State) (pat : BitVec 12) (b : BitVec 2), s.halted = false → s.pins.AllFloating → b ≠ 3#2 →
    ∃ t u seg, exec (.frame pat) s = .next t ∧ exec (.gap b) t = .next u ∧ u.trace = s.trace ++ seg ∧
      (∃ last, seg = ((List.finRange 12).flatMap fun n =>
        if pat.getLsbD n.val then
          [.pin (slotPair n).1 .h, .pin (slotPair n).2 .l, .hold .slot, .pin (slotPair n).1 .z, .pin (slotPair n).2 .z]
        else [.hold .slot]) ++ [.hold last]) ∧
      u.pins.AllFloating ∧ (holds s.pins seg).length = 13 ∧
      pinEvents seg = 4 * (List.finRange 12).countP (fun n => pat.getLsbD n.val) ∧
      (∀ n : Fin 12, ∃ ps, (holds s.pins seg)[n.val]? = some (.slot, ps) ∧
        ∀ i j : Pin, ps.energised i j = true ↔ pat.getLsbD n.val = true ∧ (i, j) = slotPair n) ∧
      (∃ d ps, (holds s.pins seg)[12]? = some (.us d, ps) ∧ interFrameDelay b = some d ∧ ps.AllFloating)

/-! ## Halts -/

/-- 60_exceptions.md R79: whichever operation halts the block, `status` is the only register written, no event is emitted
and no result is returned. The halt's entry is the spec's decision D20. -/
def Obligations.HaltWritesNothingButStatus : Prop :=
  ∀ (i : Instr) (s t : State), s.halted = false → exec i s = .next t → t.halted = true → HaltedWith s t t.cause

/-- 60_exceptions.md R80 with the table of R78: a word presented to the block raises at most one halt, and its cause is
that of the first failing check: already halted (nothing new), decode, pin code, operand, arithmetic. The order is the
spec's decision D21. -/
def Obligations.HaltCauseIsTheFirstFailingCheck : Prop :=
  ∀ (w : Word) (s : State), ∃ t, runWord w s = .next t ∧
    (s.halted = true → t.status = s.status) ∧
    (s.halted = false →
      (∀ c, expectedWordCause w s = some c → t.halted = true ∧ t.cause = c) ∧
        (expectedWordCause w s = none → t.status = s.status))

/-- 60_exceptions.md R82: while the block is halted every command, legal or not, is ignored: it changes no register, emits
no event and returns no result, whatever stands on the ports; the outputs keep following the pin registers, and the
state is no normal end of a run. The rule is the spec's decision D20; that the halted block still answers a next state
is the model's (log entries 4 and 13). -/
def Obligations.HaltedBlockIgnoresEveryCommand : Prop :=
  ∀ (w : Word) (s : State), s.halted = true →
    ∃ t, runWord w s = .next t ∧ SameRegisters s t ∧ t.trace = s.trace ∧ t.result = none ∧ SameOutside s t ∧
      t.ledOe = s.ledOe ∧ t.ledOut = s.ledOut ∧ ¬ t.EndedNormally

/-- 60_exceptions.md R81: `status.halted` stays 1 and `status.cause` keeps the first cause, however long the run, until
reset, which is the only way out, and is one. That the other registers and the trace stay is R82 (the spec's decision
D20); that a reset gives cause 0 is 70_reset_and_hazards.md R91 and R92 (decision D22); that a halted block is a next
state that steps on, and that a step with `rst` clears it, where R82 has a model treat it as a fault which no later step
clears, is the model's reading (log entry 4). -/
def Obligations.OnlyResetLeavesTheHalt : Prop :=
  (∀ (k : Nat) (s t : State), s.halted = true → (∀ st ∈ s.pending, st.rst = false) →
    Host.Core.run Sys2Proof.core k s = .next t → t.halted = true ∧ SameRegisters s t ∧ t.trace = s.trace) ∧
  (∀ s t : State, s.halted = true → step s = .next t → t.halted = false →
    ∃ st rest, s.pending = st :: rest ∧ st.rst = true) ∧
  (∀ (s : State) (st : Stimulus) (rest : List Stimulus), s.pending = st :: rest → st.rst = true →
    ∃ t, step s = .next t ∧ t.halted = false ∧ t.cause = 0#3)

/-! ## Ports -/

/-- 20_memory.md R31 to R33, 70_reset_and_hazards.md R96: the counter is read by TICK alone, a button line and `now` by
UPDATE of that key alone. With the ports that an operation reads unchanged, whatever else the ports show, the
operation does and returns the same. -/
def Obligations.PortsAreSampledOnlyByTheirOperation : Prop :=
  ∀ (i : Instr) (s t t' : State) (p : Ports), exec i s = .next t → exec i (s.setPorts p) = .next t' →
    (match i with
      | .tick => p.raw % 2 ^ s.params.cw = s.ports.raw % 2 ^ s.params.cw
      | .update .a => p.btnA = s.ports.btnA ∧ p.now = s.ports.now
      | .update .b => p.btnB = s.ports.btnB ∧ p.now = s.ports.now
      | .active _ | .float _ | .drive _ _ | .light _ _ _ | .frame _ | .gap _ => True) →
    SameRegisters t t' ∧ t'.trace = t.trace ∧ t'.result = t.result

/-! ## The owner's protocol -/

/-- 44_loop_protocol.md R71, R73, R102, 43_charlieplex.md R62: an iteration that follows the protocol, whichever key it
updates first, whatever ACTIVE commands its game update issues and whether its delay comes before or after its frame
(R74, R75; 92_eei_decisions.md D19, D27), with a legal brightness index and a total that still fits, runs to its end:
the block does not halt (no NOW_REGRESSED), the total is what the TICK added, no timestamp is ahead of it, and all pins
are Z at the iteration's boundary. -/
def Obligations.ProtocolIterationEndsReady : Prop :=
  ∀ (x : Iteration) (s : State), s.ProtocolReady → x.b ≠ 3#2 →
    let sum := s.tb.total.toNat + scale s.params (subMod s.params.cw (x.raw % 2 ^ s.params.cw) s.tb.lastRaw)
    sum < 2 ^ 64 →
    ∃ t, ownerIteration x s = .next t ∧ t.ProtocolReady ∧ t.tb.total.toNat = sum ∧
      t.tb.lastRaw = x.raw % 2 ^ s.params.cw

/-- 44_loop_protocol.md R73, from reset and for any number of iterations: under the protocol NOW_REGRESSED, ILLEGAL_OP,
BAD_PAIR and BAD_PIN_MODE cannot occur; the block either still runs and is ready for the next iteration, or has halted
on a brightness index 3 or on the overflow of the total, with all pins Z. That the halt is a next state is log entry 4;
that an iteration ends after a TICK that returned nothing is log entry 9 (DESIGN CHOICE). -/
def Obligations.ProtocolNeverRegressesFromReset : Prop :=
  ∀ (p : Params) (xs : List Iteration),
    ∃ t, ownerRun xs (State.resetWith p) = .next t ∧ t.pins.AllFloating ∧
      (t.ProtocolReady ∨ (t.halted = true ∧ (t.cause = 3#3 ∨ t.cause = 6#3)))

/-! ## Invariants of the step and of the owner's iteration -/

/-- 43_charlieplex.md R62 with R60, as a step: from any state with all pins Z and no DRIVE still to come, a step that
answers a next state answers one of the same kind, and what it appended to the trace satisfies INV at every instant and
has in every hold no pin driven or exactly one H pin and one L pin; or it was a reset, which empties the trace (log
entry 6). The owner's stream is the model's own field (log entry 2). -/
def Obligations.EveryStepWithoutDriveLightsAtMostOneLed : Prop :=
  ∀ s t : State, s.DriveFree → step s = .next t →
    t.DriveFree ∧
      ((∃ seg, t.trace = s.trace ++ seg ∧ LightsAtMostOne s.pins seg) ∨
        (∃ st rest, s.pending = st :: rest ∧ st.rst = true ∧ t.trace = []))

/-- 70_reset_and_hazards.md R91 with 43_charlieplex.md R60: after reset all pins are Z and INV holds; nothing is still to
be presented (log entry 2), so the statement above can begin with the reset state. -/
def Obligations.ResetIsDriveFree : Prop :=
  ∀ p : Params, (State.resetWith p).DriveFree ∧ (State.resetWith p).pins.Electrical

/-- 44_loop_protocol.md R74: which key an iteration updates first changes nothing in the block: both orders answer, and
they answer the same state. -/
def Obligations.KeyOrderOfAnIterationIsIrrelevant : Prop :=
  ∀ (x : Iteration) (s : State), s.ProtocolReady →
    ∃ t, ownerIteration { x with first := .a } s = .next t ∧ ownerIteration { x with first := .b } s = .next t

/-- 44_loop_protocol.md R73, as a step of the owner: from every state that the protocol keeps, ready or halted on a
brightness index or on the overflow of the total, with all pins Z, every iteration answers a state of the same kind. So
NOW_REGRESSED, ILLEGAL_OP, BAD_PAIR and BAD_PIN_MODE do not occur. That the halt is a next state is log entry 4; that an
iteration ends after a TICK that returned nothing, and what an iteration may hold, is log entry 9. -/
def Obligations.EveryIterationKeepsTheProtocol : Prop :=
  ∀ (x : Iteration) (s : State), s.ProtocolKept → ∃ t, ownerIteration x s = .next t ∧ t.ProtocolKept
end

