-- ==== Sys2Proof/Laws/Decode.lean ====
section
/-! SUPPORT. The opcode map as arithmetic: every mask of 30_encoding.md R39 keeps the high bits from some bit on, so
that a row selects a word exactly when the word's quotient by a power of two is the row's. -/

namespace Sys2Proof

/-- Masking off the low k bits. -/
theorem toNat_and_highMask (w : Word) (k : Nat) :
    (w &&& (BitVec.allOnes 16 <<< k)).toNat = w.toNat / 2 ^ k * 2 ^ k := by
  have e : w &&& (BitVec.allOnes 16 <<< k) = (w >>> k) <<< k := by
    refine BitVec.eq_of_getLsbD_eq fun i hi => ?_
    simp only [BitVec.getLsbD_and, BitVec.getLsbD_shiftLeft, BitVec.getLsbD_allOnes, BitVec.getLsbD_ushiftRight]
    by_cases h : i < k
    · simp [h]
    · have e : k + (i - k) = i := by omega
      simp [h, hi, e, show i - k < 16 by omega]
  rw [e, BitVec.toNat_shiftLeft, BitVec.toNat_ushiftRight, Nat.shiftLeft_eq, Nat.shiftRight_eq_div_pow]
  exact Nat.mod_eq_of_lt (lt_of_le_of_lt (Nat.div_mul_le_self _ _) w.isLt)

/-- A high mask compared with a pattern, as arithmetic. -/
theorem and_mask_eq_iff (w p m : Word) (k : Nat) (hm : m = BitVec.allOnes 16 <<< k) :
    w &&& m = p ↔ w.toNat / 2 ^ k * 2 ^ k = p.toNat := by
  rw [hm, ← toNat_and_highMask, BitVec.toNat_inj]

/-- One row tried before the rest. -/
theorem find?_rows_cons (w : Word) (r : Row) (rs : List Row) :
    (r :: rs).find? (fun r => r.selects w) =
      if w &&& r.mask = r.pattern then some r else rs.find? fun r => r.selects w := by
  by_cases h : w &&& r.mask = r.pattern
  · simp [Row.selects, h]
  · have hb : (w &&& r.mask == r.pattern) = false := beq_eq_false_iff_ne.2 h
    simp [Row.selects, h, hb]

/-- The decoder as a chain of comparisons of quotients of the word. -/
theorem decode_eq (w : Word) :
    decode w =
      if w.toNat = 0x1000 then .ok .tick
      else if w.toNat / 2 = 0x2000 / 2 then .ok (Op.update.instr w)
      else if w.toNat / 4 = 0x3000 / 4 then .ok (Op.active.instr w)
      else if w.toNat / 4 = 0x4000 / 4 then .ok (Op.float.instr w)
      else if w.toNat / 8 = 0x5000 / 8 then .ok (Op.drive.instr w)
      else if w.toNat / 32 = 0x6000 / 32 then .ok (Op.light.instr w)
      else if w.toNat / 4096 = 0x7000 / 4096 then .ok (Op.frame.instr w)
      else if w.toNat / 4 = 0x8000 / 4 then .ok (Op.gap.instr w)
      else .error (rejection w) := by
  have e (k : Nat) (m : Word) (hm : m = BitVec.allOnes 16 <<< k) (p : Word) :=
    and_mask_eq_iff w p m k hm
  have e0 := e 0 0xFFFF#16 (by decide) 0x1000#16
  have e1 := e 1 0xFFFE#16 (by decide) 0x2000#16
  have e2 := e 2 0xFFFC#16 (by decide)
  have e5 := e 3 0xFFF8#16 (by decide) 0x5000#16
  have e6 := e 5 0xFFE0#16 (by decide) 0x6000#16
  have e7 := e 12 0xF000#16 (by decide) 0x7000#16
  have f0 : w &&& 0xFFFF#16 = 0x1000#16 ↔ w.toNat = 0x1000 := by rw [e0]; simp
  have f1 : w &&& 0xFFFE#16 = 0x2000#16 ↔ w.toNat / 2 = 0x2000 / 2 := by rw [e1, BitVec.toNat_ofNat]; omega
  have f2 : w &&& 0xFFFC#16 = 0x3000#16 ↔ w.toNat / 4 = 0x3000 / 4 := by rw [e2, BitVec.toNat_ofNat]; omega
  have f4 : w &&& 0xFFFC#16 = 0x4000#16 ↔ w.toNat / 4 = 0x4000 / 4 := by rw [e2, BitVec.toNat_ofNat]; omega
  have f5 : w &&& 0xFFF8#16 = 0x5000#16 ↔ w.toNat / 8 = 0x5000 / 8 := by rw [e5, BitVec.toNat_ofNat]; omega
  have f6 : w &&& 0xFFE0#16 = 0x6000#16 ↔ w.toNat / 32 = 0x6000 / 32 := by rw [e6, BitVec.toNat_ofNat]; omega
  have f7 : w &&& 0xF000#16 = 0x7000#16 ↔ w.toNat / 4096 = 0x7000 / 4096 := by rw [e7, BitVec.toNat_ofNat]; omega
  have f8 : w &&& 0xFFFC#16 = 0x8000#16 ↔ w.toNat / 4 = 0x8000 / 4 := by rw [e2, BitVec.toNat_ofNat]; omega
  simp only [decode, opcodeRows, find?_rows_cons, List.find?_nil, f0, f1, f2, f4, f5, f6, f7, f8]
  split_ifs <;> rfl

theorem toNat_field2 (w : Word) (lo : Nat) : (field2 w lo).toNat = w.toNat / 2 ^ lo % 4 := by
  simp [field2, BitVec.extractLsb'_toNat, Nat.shiftRight_eq_div_pow]

theorem pinField_val (w : Word) (lo : Nat) : (pinField w lo).val = w.toNat / 2 ^ lo % 4 := toNat_field2 w lo

theorem ofCode_code (st : ButtonState) : ButtonState.ofCode st.code = st := by cases st <;> rfl

theorem code_ofCode (c : BitVec 2) : (ButtonState.ofCode c).code = c := by revert c; decide

end Sys2Proof
end

