-- ==== Sys2Proof/Laws/State.lean ====
section
/-! SUPPORT. One lemma per field per update, so that no proof unfolds a record update. -/

namespace Sys2Proof.Machine

/-! ## setTb -/

@[simp] theorem State.setTb_params (s : State) (v : TimeBase) : (s.setTb v).params = s.params := rfl
@[simp] theorem State.setTb_tb (s : State) (v : TimeBase) : (s.setTb v).tb = v := rfl
@[simp] theorem State.setTb_keyA (s : State) (v : TimeBase) : (s.setTb v).keyA = s.keyA := rfl
@[simp] theorem State.setTb_keyB (s : State) (v : TimeBase) : (s.setTb v).keyB = s.keyB := rfl
@[simp] theorem State.setTb_pins (s : State) (v : TimeBase) : (s.setTb v).pins = s.pins := rfl
@[simp] theorem State.setTb_status (s : State) (v : TimeBase) : (s.setTb v).status = s.status := rfl
@[simp] theorem State.setTb_result (s : State) (v : TimeBase) : (s.setTb v).result = s.result := rfl
@[simp] theorem State.setTb_trace (s : State) (v : TimeBase) : (s.setTb v).trace = s.trace := rfl
@[simp] theorem State.setTb_ports (s : State) (v : TimeBase) : (s.setTb v).ports = s.ports := rfl
@[simp] theorem State.setTb_pending (s : State) (v : TimeBase) : (s.setTb v).pending = s.pending := rfl

/-! ## setStatus -/

@[simp] theorem State.setStatus_params (s : State) (v : BitVec 4) : (s.setStatus v).params = s.params := rfl
@[simp] theorem State.setStatus_tb (s : State) (v : BitVec 4) : (s.setStatus v).tb = s.tb := rfl
@[simp] theorem State.setStatus_keyA (s : State) (v : BitVec 4) : (s.setStatus v).keyA = s.keyA := rfl
@[simp] theorem State.setStatus_keyB (s : State) (v : BitVec 4) : (s.setStatus v).keyB = s.keyB := rfl
@[simp] theorem State.setStatus_pins (s : State) (v : BitVec 4) : (s.setStatus v).pins = s.pins := rfl
@[simp] theorem State.setStatus_status (s : State) (v : BitVec 4) : (s.setStatus v).status = v := rfl
@[simp] theorem State.setStatus_result (s : State) (v : BitVec 4) : (s.setStatus v).result = s.result := rfl
@[simp] theorem State.setStatus_trace (s : State) (v : BitVec 4) : (s.setStatus v).trace = s.trace := rfl
@[simp] theorem State.setStatus_ports (s : State) (v : BitVec 4) : (s.setStatus v).ports = s.ports := rfl
@[simp] theorem State.setStatus_pending (s : State) (v : BitVec 4) : (s.setStatus v).pending = s.pending := rfl

/-! ## setResult -/

@[simp] theorem State.setResult_params (s : State) (v : Option Result) : (s.setResult v).params = s.params := rfl
@[simp] theorem State.setResult_tb (s : State) (v : Option Result) : (s.setResult v).tb = s.tb := rfl
@[simp] theorem State.setResult_keyA (s : State) (v : Option Result) : (s.setResult v).keyA = s.keyA := rfl
@[simp] theorem State.setResult_keyB (s : State) (v : Option Result) : (s.setResult v).keyB = s.keyB := rfl
@[simp] theorem State.setResult_pins (s : State) (v : Option Result) : (s.setResult v).pins = s.pins := rfl
@[simp] theorem State.setResult_status (s : State) (v : Option Result) : (s.setResult v).status = s.status := rfl
@[simp] theorem State.setResult_result (s : State) (v : Option Result) : (s.setResult v).result = v := rfl
@[simp] theorem State.setResult_trace (s : State) (v : Option Result) : (s.setResult v).trace = s.trace := rfl
@[simp] theorem State.setResult_ports (s : State) (v : Option Result) : (s.setResult v).ports = s.ports := rfl
@[simp] theorem State.setResult_pending (s : State) (v : Option Result) : (s.setResult v).pending = s.pending := rfl

/-! ## setPorts -/

@[simp] theorem State.setPorts_params (s : State) (v : Ports) : (s.setPorts v).params = s.params := rfl
@[simp] theorem State.setPorts_tb (s : State) (v : Ports) : (s.setPorts v).tb = s.tb := rfl
@[simp] theorem State.setPorts_keyA (s : State) (v : Ports) : (s.setPorts v).keyA = s.keyA := rfl
@[simp] theorem State.setPorts_keyB (s : State) (v : Ports) : (s.setPorts v).keyB = s.keyB := rfl
@[simp] theorem State.setPorts_pins (s : State) (v : Ports) : (s.setPorts v).pins = s.pins := rfl
@[simp] theorem State.setPorts_status (s : State) (v : Ports) : (s.setPorts v).status = s.status := rfl
@[simp] theorem State.setPorts_result (s : State) (v : Ports) : (s.setPorts v).result = s.result := rfl
@[simp] theorem State.setPorts_trace (s : State) (v : Ports) : (s.setPorts v).trace = s.trace := rfl
@[simp] theorem State.setPorts_ports (s : State) (v : Ports) : (s.setPorts v).ports = v := rfl
@[simp] theorem State.setPorts_pending (s : State) (v : Ports) : (s.setPorts v).pending = s.pending := rfl

/-! ## setPending -/

@[simp] theorem State.setPending_params (s : State) (v : List Stimulus) : (s.setPending v).params = s.params := rfl
@[simp] theorem State.setPending_tb (s : State) (v : List Stimulus) : (s.setPending v).tb = s.tb := rfl
@[simp] theorem State.setPending_keyA (s : State) (v : List Stimulus) : (s.setPending v).keyA = s.keyA := rfl
@[simp] theorem State.setPending_keyB (s : State) (v : List Stimulus) : (s.setPending v).keyB = s.keyB := rfl
@[simp] theorem State.setPending_pins (s : State) (v : List Stimulus) : (s.setPending v).pins = s.pins := rfl
@[simp] theorem State.setPending_status (s : State) (v : List Stimulus) : (s.setPending v).status = s.status := rfl
@[simp] theorem State.setPending_result (s : State) (v : List Stimulus) : (s.setPending v).result = s.result := rfl
@[simp] theorem State.setPending_trace (s : State) (v : List Stimulus) : (s.setPending v).trace = s.trace := rfl
@[simp] theorem State.setPending_ports (s : State) (v : List Stimulus) : (s.setPending v).ports = s.ports := rfl
@[simp] theorem State.setPending_pending (s : State) (v : List Stimulus) : (s.setPending v).pending = v := rfl

/-! ## emit -/

@[simp] theorem State.emit_params (s : State) (e : Event) : (s.emit e).params = s.params := rfl
@[simp] theorem State.emit_tb (s : State) (e : Event) : (s.emit e).tb = s.tb := rfl
@[simp] theorem State.emit_keyA (s : State) (e : Event) : (s.emit e).keyA = s.keyA := rfl
@[simp] theorem State.emit_keyB (s : State) (e : Event) : (s.emit e).keyB = s.keyB := rfl
@[simp] theorem State.emit_pins (s : State) (e : Event) : (s.emit e).pins = s.pins := rfl
@[simp] theorem State.emit_status (s : State) (e : Event) : (s.emit e).status = s.status := rfl
@[simp] theorem State.emit_result (s : State) (e : Event) : (s.emit e).result = s.result := rfl
@[simp] theorem State.emit_trace (s : State) (e : Event) : (s.emit e).trace = s.trace ++ [e] := rfl
@[simp] theorem State.emit_ports (s : State) (e : Event) : (s.emit e).ports = s.ports := rfl
@[simp] theorem State.emit_pending (s : State) (e : Event) : (s.emit e).pending = s.pending := rfl

/-! ## setPin -/

@[simp] theorem State.setPin_params (s : State) (p : Pin) (v : BitVec 2) : (s.setPin p v).params = s.params := rfl
@[simp] theorem State.setPin_tb (s : State) (p : Pin) (v : BitVec 2) : (s.setPin p v).tb = s.tb := rfl
@[simp] theorem State.setPin_keyA (s : State) (p : Pin) (v : BitVec 2) : (s.setPin p v).keyA = s.keyA := rfl
@[simp] theorem State.setPin_keyB (s : State) (p : Pin) (v : BitVec 2) : (s.setPin p v).keyB = s.keyB := rfl
@[simp] theorem State.setPin_pins (s : State) (p : Pin) (v : BitVec 2) : (s.setPin p v).pins = s.pins.set p v := rfl
@[simp] theorem State.setPin_status (s : State) (p : Pin) (v : BitVec 2) : (s.setPin p v).status = s.status := rfl
@[simp] theorem State.setPin_result (s : State) (p : Pin) (v : BitVec 2) : (s.setPin p v).result = s.result := rfl
@[simp] theorem State.setPin_trace (s : State) (p : Pin) (v : BitVec 2) : (s.setPin p v).trace = s.trace := rfl
@[simp] theorem State.setPin_ports (s : State) (p : Pin) (v : BitVec 2) : (s.setPin p v).ports = s.ports := rfl
@[simp] theorem State.setPin_pending (s : State) (p : Pin) (v : BitVec 2) : (s.setPin p v).pending = s.pending := rfl

/-! ## setKey -/

@[simp] theorem State.setKey_params (s : State) (k : KeySel) (v : Key) : (s.setKey k v).params = s.params := by
  cases k <;> rfl
@[simp] theorem State.setKey_tb (s : State) (k : KeySel) (v : Key) : (s.setKey k v).tb = s.tb := by
  cases k <;> rfl
@[simp] theorem State.setKey_pins (s : State) (k : KeySel) (v : Key) : (s.setKey k v).pins = s.pins := by
  cases k <;> rfl
@[simp] theorem State.setKey_status (s : State) (k : KeySel) (v : Key) : (s.setKey k v).status = s.status := by
  cases k <;> rfl
@[simp] theorem State.setKey_result (s : State) (k : KeySel) (v : Key) : (s.setKey k v).result = s.result := by
  cases k <;> rfl
@[simp] theorem State.setKey_trace (s : State) (k : KeySel) (v : Key) : (s.setKey k v).trace = s.trace := by
  cases k <;> rfl
@[simp] theorem State.setKey_ports (s : State) (k : KeySel) (v : Key) : (s.setKey k v).ports = s.ports := by
  cases k <;> rfl
@[simp] theorem State.setKey_pending (s : State) (k : KeySel) (v : Key) : (s.setKey k v).pending = s.pending := by
  cases k <;> rfl
@[simp] theorem State.setKey_key (s : State) (k : KeySel) (v : Key) : (s.setKey k v).key k = v := by
  cases k <;> rfl
theorem State.setKey_key_of_ne (s : State) {j k : KeySel} (v : Key) (h : j ≠ k) : (s.setKey k v).key j = s.key j := by
  cases j <;> cases k <;> first | rfl | exact absurd rfl h

/-! ## pinWrite, hold, raiseHalt, applyReset -/

@[simp] theorem State.pinWrite_params (s : State) (p : Pin) (m : PinMode) : (s.pinWrite p m).params = s.params := rfl
@[simp] theorem State.pinWrite_tb (s : State) (p : Pin) (m : PinMode) : (s.pinWrite p m).tb = s.tb := rfl
@[simp] theorem State.pinWrite_keyA (s : State) (p : Pin) (m : PinMode) : (s.pinWrite p m).keyA = s.keyA := rfl
@[simp] theorem State.pinWrite_keyB (s : State) (p : Pin) (m : PinMode) : (s.pinWrite p m).keyB = s.keyB := rfl
@[simp] theorem State.pinWrite_pins (s : State) (p : Pin) (m : PinMode) : (s.pinWrite p m).pins = s.pins.set p m.code := rfl
@[simp] theorem State.pinWrite_status (s : State) (p : Pin) (m : PinMode) : (s.pinWrite p m).status = s.status := rfl
@[simp] theorem State.pinWrite_result (s : State) (p : Pin) (m : PinMode) : (s.pinWrite p m).result = s.result := rfl
@[simp] theorem State.pinWrite_trace (s : State) (p : Pin) (m : PinMode) : (s.pinWrite p m).trace = s.trace ++ [.pin p m] := rfl
@[simp] theorem State.pinWrite_ports (s : State) (p : Pin) (m : PinMode) : (s.pinWrite p m).ports = s.ports := rfl
@[simp] theorem State.pinWrite_pending (s : State) (p : Pin) (m : PinMode) : (s.pinWrite p m).pending = s.pending := rfl
@[simp] theorem State.hold_params (s : State) (d : Duration) : (s.hold d).params = s.params := rfl
@[simp] theorem State.hold_tb (s : State) (d : Duration) : (s.hold d).tb = s.tb := rfl
@[simp] theorem State.hold_keyA (s : State) (d : Duration) : (s.hold d).keyA = s.keyA := rfl
@[simp] theorem State.hold_keyB (s : State) (d : Duration) : (s.hold d).keyB = s.keyB := rfl
@[simp] theorem State.hold_pins (s : State) (d : Duration) : (s.hold d).pins = s.pins := rfl
@[simp] theorem State.hold_status (s : State) (d : Duration) : (s.hold d).status = s.status := rfl
@[simp] theorem State.hold_result (s : State) (d : Duration) : (s.hold d).result = s.result := rfl
@[simp] theorem State.hold_trace (s : State) (d : Duration) : (s.hold d).trace = s.trace ++ [.hold d] := rfl
@[simp] theorem State.hold_ports (s : State) (d : Duration) : (s.hold d).ports = s.ports := rfl
@[simp] theorem State.hold_pending (s : State) (d : Duration) : (s.hold d).pending = s.pending := rfl
@[simp] theorem raiseHalt_params (c : Cause) (s : State) : (raiseHalt c s).params = s.params := rfl
@[simp] theorem raiseHalt_tb (c : Cause) (s : State) : (raiseHalt c s).tb = s.tb := rfl
@[simp] theorem raiseHalt_keyA (c : Cause) (s : State) : (raiseHalt c s).keyA = s.keyA := rfl
@[simp] theorem raiseHalt_keyB (c : Cause) (s : State) : (raiseHalt c s).keyB = s.keyB := rfl
@[simp] theorem raiseHalt_pins (c : Cause) (s : State) : (raiseHalt c s).pins = s.pins := rfl
@[simp] theorem raiseHalt_status (c : Cause) (s : State) : (raiseHalt c s).status = haltedStatus c := rfl
@[simp] theorem raiseHalt_result (c : Cause) (s : State) : (raiseHalt c s).result = none := rfl
@[simp] theorem raiseHalt_trace (c : Cause) (s : State) : (raiseHalt c s).trace = s.trace := rfl
@[simp] theorem raiseHalt_ports (c : Cause) (s : State) : (raiseHalt c s).ports = s.ports := rfl
@[simp] theorem raiseHalt_pending (c : Cause) (s : State) : (raiseHalt c s).pending = s.pending := rfl
@[simp] theorem State.applyReset_params (s : State) : s.applyReset.params = s.params := rfl
@[simp] theorem State.applyReset_tb (s : State) : s.applyReset.tb = (State.resetWith s.params).tb := rfl
@[simp] theorem State.applyReset_keyA (s : State) : s.applyReset.keyA = (State.resetWith s.params).keyA := rfl
@[simp] theorem State.applyReset_keyB (s : State) : s.applyReset.keyB = (State.resetWith s.params).keyB := rfl
@[simp] theorem State.applyReset_pins (s : State) : s.applyReset.pins = (State.resetWith s.params).pins := rfl
@[simp] theorem State.applyReset_status (s : State) : s.applyReset.status = (State.resetWith s.params).status := rfl
@[simp] theorem State.applyReset_result (s : State) : s.applyReset.result = (State.resetWith s.params).result := rfl
@[simp] theorem State.applyReset_trace (s : State) : s.applyReset.trace = (State.resetWith s.params).trace := rfl
@[simp] theorem State.applyReset_ports (s : State) : s.applyReset.ports = s.ports := rfl
@[simp] theorem State.applyReset_pending (s : State) : s.applyReset.pending = s.pending := rfl

/-! ## Fields read through accessors -/

/-- The accessors read nothing but the registers they are named after. -/
theorem State.halted_congr {s t : State} (h : t.status = s.status) : t.halted = s.halted := by
  simp only [State.halted, h]
theorem State.cause_congr {s t : State} (h : t.status = s.status) : t.cause = s.cause := by
  simp only [State.cause, h]
theorem State.key_congr {s t : State} (ha : t.keyA = s.keyA) (hb : t.keyB = s.keyB) (k : KeySel) :
    t.key k = s.key k := by
  cases k
  · exact ha
  · exact hb

@[simp] theorem State.setTb_halted (s : State) (v : TimeBase) : (s.setTb v).halted = s.halted := rfl
@[simp] theorem State.setTb_cause (s : State) (v : TimeBase) : (s.setTb v).cause = s.cause := rfl
@[simp] theorem State.setTb_key (s : State) (v : TimeBase) (k : KeySel) : (s.setTb v).key k = s.key k := by
  cases k <;> rfl
@[simp] theorem State.setTb_readBtn (s : State) (v : TimeBase) (k : KeySel) : (s.setTb v).readBtn k = s.readBtn k := by
  cases k <;> rfl
@[simp] theorem State.setTb_readRaw (s : State) (v : TimeBase) : (s.setTb v).readRaw = s.readRaw := rfl
@[simp] theorem State.setStatus_key (s : State) (v : BitVec 4) (k : KeySel) : (s.setStatus v).key k = s.key k := by
  cases k <;> rfl
@[simp] theorem State.setStatus_readBtn (s : State) (v : BitVec 4) (k : KeySel) : (s.setStatus v).readBtn k = s.readBtn k := by
  cases k <;> rfl
@[simp] theorem State.setStatus_readRaw (s : State) (v : BitVec 4) : (s.setStatus v).readRaw = s.readRaw := rfl
@[simp] theorem State.setResult_halted (s : State) (v : Option Result) : (s.setResult v).halted = s.halted := rfl
@[simp] theorem State.setResult_cause (s : State) (v : Option Result) : (s.setResult v).cause = s.cause := rfl
@[simp] theorem State.setResult_key (s : State) (v : Option Result) (k : KeySel) : (s.setResult v).key k = s.key k := by
  cases k <;> rfl
@[simp] theorem State.setResult_readBtn (s : State) (v : Option Result) (k : KeySel) : (s.setResult v).readBtn k = s.readBtn k := by
  cases k <;> rfl
@[simp] theorem State.setResult_readRaw (s : State) (v : Option Result) : (s.setResult v).readRaw = s.readRaw := rfl
@[simp] theorem State.setPorts_halted (s : State) (v : Ports) : (s.setPorts v).halted = s.halted := rfl
@[simp] theorem State.setPorts_cause (s : State) (v : Ports) : (s.setPorts v).cause = s.cause := rfl
@[simp] theorem State.setPorts_key (s : State) (v : Ports) (k : KeySel) : (s.setPorts v).key k = s.key k := by
  cases k <;> rfl
@[simp] theorem State.setPending_halted (s : State) (v : List Stimulus) : (s.setPending v).halted = s.halted := rfl
@[simp] theorem State.setPending_cause (s : State) (v : List Stimulus) : (s.setPending v).cause = s.cause := rfl
@[simp] theorem State.setPending_key (s : State) (v : List Stimulus) (k : KeySel) : (s.setPending v).key k = s.key k := by
  cases k <;> rfl
@[simp] theorem State.setPending_readBtn (s : State) (v : List Stimulus) (k : KeySel) : (s.setPending v).readBtn k = s.readBtn k := by
  cases k <;> rfl
@[simp] theorem State.setPending_readRaw (s : State) (v : List Stimulus) : (s.setPending v).readRaw = s.readRaw := rfl
@[simp] theorem State.setKey_halted (s : State) (k : KeySel) (v : Key) : (s.setKey k v).halted = s.halted := by
  cases k <;> rfl
@[simp] theorem State.setKey_cause (s : State) (k : KeySel) (v : Key) : (s.setKey k v).cause = s.cause := by
  cases k <;> rfl
@[simp] theorem State.emit_halted (s : State) (e : Event) : (s.emit e).halted = s.halted := rfl
@[simp] theorem State.emit_cause (s : State) (e : Event) : (s.emit e).cause = s.cause := rfl
@[simp] theorem State.pinWrite_halted (s : State) (p : Pin) (m : PinMode) : (s.pinWrite p m).halted = s.halted := rfl
@[simp] theorem State.pinWrite_cause (s : State) (p : Pin) (m : PinMode) : (s.pinWrite p m).cause = s.cause := rfl
@[simp] theorem State.hold_halted (s : State) (d : Duration) : (s.hold d).halted = s.halted := rfl
@[simp] theorem State.hold_cause (s : State) (d : Duration) : (s.hold d).cause = s.cause := rfl
theorem haltedStatus_halted (c : Cause) : (haltedStatus c).getLsbD 0 = true := by
  cases c <;> decide
theorem haltedStatus_cause (c : Cause) : (haltedStatus c).extractLsb' 1 3 = c.code := by
  cases c <;> decide
@[simp] theorem raiseHalt_halted (c : Cause) (s : State) : (raiseHalt c s).halted = true := haltedStatus_halted c
@[simp] theorem raiseHalt_cause (c : Cause) (s : State) : (raiseHalt c s).cause = c.code := haltedStatus_cause c

@[simp] theorem State.resetWith_halted (p : Params) : (State.resetWith p).halted = false := by
  simp [State.halted, State.resetWith]
@[simp] theorem State.resetWith_cause (p : Params) : (State.resetWith p).cause = 0#3 := by
  simp [State.cause, State.resetWith]
theorem State.resetWith_floating (p : Params) : (State.resetWith p).pins.AllFloating := fun q => by
  fin_cases q <;> rfl

/-! ## Result ports -/

@[simp] theorem State.resElapsed_of_elapsed (s : State) (d : Micros) :
    (s.setResult (some (.elapsed d))).resElapsed = some (d) := rfl
@[simp] theorem State.resElapsed_of_state (s : State) (d : ButtonState) :
    (s.setResult (some (.state d))).resElapsed = none := rfl
@[simp] theorem State.resElapsed_of_active (s : State) (d : Bool) :
    (s.setResult (some (.active d))).resElapsed = none := rfl
@[simp] theorem State.resElapsed_of_none (s : State) : (s.setResult none).resElapsed = none := rfl
@[simp] theorem State.resState_of_elapsed (s : State) (d : Micros) :
    (s.setResult (some (.elapsed d))).resState = none := rfl
@[simp] theorem State.resState_of_state (s : State) (d : ButtonState) :
    (s.setResult (some (.state d))).resState = some (d.code) := rfl
@[simp] theorem State.resState_of_active (s : State) (d : Bool) :
    (s.setResult (some (.active d))).resState = none := rfl
@[simp] theorem State.resState_of_none (s : State) : (s.setResult none).resState = none := rfl
@[simp] theorem State.resActive_of_elapsed (s : State) (d : Micros) :
    (s.setResult (some (.elapsed d))).resActive = none := rfl
@[simp] theorem State.resActive_of_state (s : State) (d : ButtonState) :
    (s.setResult (some (.state d))).resActive = none := rfl
@[simp] theorem State.resActive_of_active (s : State) (d : Bool) :
    (s.setResult (some (.active d))).resActive = some (BitVec.ofBool d) := rfl
@[simp] theorem State.resActive_of_none (s : State) : (s.setResult none).resActive = none := rfl

end Sys2Proof.Machine
end

