-- ==== Sys2Proof/Laws/Ops.lean ====
section
/-! SUPPORT. For each shared operation, once, everything it can do; later proofs cite these lemmas instead of
unfolding the operation. -/

namespace Sys2Proof.Machine

/-! ## Pin registers -/

@[simp] theorem Pins.get_set_self (ps : Pins) (p : Pin) (v : BitVec 2) : (ps.set p v).get p = v := by
  fin_cases p <;> rfl

theorem Pins.get_set_of_ne (ps : Pins) {p q : Pin} (v : BitVec 2) (h : q ≠ p) : (ps.set p v).get q = ps.get q := by
  fin_cases p <;> fin_cases q <;> first | rfl | exact absurd rfl h

/-- The four registers determine the pin file. -/
theorem Pins.ext_get {ps qs : Pins} (h : ∀ p, ps.get p = qs.get p) : ps = qs := by
  cases ps; cases qs
  have h0 := h 0; have h1 := h 1; have h2 := h 2; have h3 := h 3
  simp only [Pins.get] at h0 h1 h2 h3
  simp [h0, h1, h2, h3]

/-- The entry check of the pin operations finds the spare code exactly when some pin register holds it. -/
theorem Pins.anyInvalid_iff (ps : Pins) : ps.anyInvalid = true ↔ ∃ p : Pin, ps.get p = invalidPinCode := by
  simp only [Pins.anyInvalid, Bool.or_eq_true, beq_iff_eq]
  constructor
  · rintro (((h | h) | h) | h)
    · exact ⟨0, h⟩
    · exact ⟨1, h⟩
    · exact ⟨2, h⟩
    · exact ⟨3, h⟩
  · rintro ⟨p, h⟩
    fin_cases p <;> simp_all [Pins.get]

theorem Pins.anyInvalid_eq_false_iff (ps : Pins) : ps.anyInvalid = false ↔ ps.Legal := by
  rw [← Bool.not_eq_true, Pins.anyInvalid_iff, not_exists]

theorem Pins.AllFloating.legal {ps : Pins} (h : ps.AllFloating) : ps.Legal := fun p => by
  rw [h p]; decide

/-- A mode is never the spare code. -/
theorem PinMode.code_ne_invalid (m : PinMode) : m.code ≠ invalidPinCode := by cases m <;> decide

theorem Pins.Legal.set {ps : Pins} (h : ps.Legal) (p : Pin) (m : PinMode) : (ps.set p m.code).Legal := fun q => by
  by_cases hq : q = p
  · subst hq; simpa using m.code_ne_invalid
  · rw [Pins.get_set_of_ne _ _ hq]; exact h q

/-! ## The checks -/

theorem unlessHalted_of_halted {s : State} (h : s.halted = true) (body : State → State) :
    unlessHalted s body = s.setResult none := by simp [unlessHalted, h]

theorem unlessHalted_of_running {s : State} (h : s.halted = false) (body : State → State) :
    unlessHalted s body = body (s.setResult none) := by simp [unlessHalted, h]

/-- A command is ignored, or its body runs on a running block. -/
theorem unlessHalted_cases (s : State) (body : State → State) :
    (s.halted = true ∧ unlessHalted s body = s.setResult none) ∨
      (s.halted = false ∧ unlessHalted s body = body (s.setResult none)) := by
  cases h : s.halted
  · exact .inr ⟨rfl, unlessHalted_of_running h body⟩
  · exact .inl ⟨rfl, unlessHalted_of_halted h body⟩

theorem unlessBadPin_of_legal {s : State} (h : s.pins.Legal) (body : State → State) : unlessBadPin s body = body s := by
  simp [unlessBadPin, (Pins.anyInvalid_eq_false_iff _).2 h]

theorem unlessBadPin_of_invalid {s : State} (h : ∃ p : Pin, s.pins.get p = invalidPinCode) (body : State → State) :
    unlessBadPin s body = raiseHalt .badPinMode s := by simp [unlessBadPin, (Pins.anyInvalid_iff _).2 h]

theorem unlessBadPin_cases (s : State) (body : State → State) :
    (¬ s.pins.Legal ∧ unlessBadPin s body = raiseHalt .badPinMode s) ∨
      (s.pins.Legal ∧ unlessBadPin s body = body s) := by
  cases h : s.pins.anyInvalid
  · exact .inr ⟨(Pins.anyInvalid_eq_false_iff _).1 h, by simp [unlessBadPin, h]⟩
  · refine .inl ⟨fun hl => ?_, by simp [unlessBadPin, h]⟩
    rw [(Pins.anyInvalid_eq_false_iff _).2 hl] at h
    cases h

/-- Taking a halt is what 60_exceptions.md R79 says: `status` alone is written. -/
theorem raiseHalt_haltedWith (c : Cause) (s : State) : HaltedWith s (raiseHalt c s) c.code where
  halted := raiseHalt_halted c s
  cause := raiseHalt_cause c s
  tb := rfl
  keyA := rfl
  keyB := rfl
  pins := rfl
  trace := rfl
  result := rfl
  outside := ⟨rfl, rfl, rfl⟩

/-! ## Stretches of trace -/

theorem Pins.afterEvents_append (ps : Pins) (a b : List Event) :
    ps.afterEvents (a ++ b) = (ps.afterEvents a).afterEvents b := by simp [Pins.afterEvents]

theorem holds_append (ps : Pins) (a b : List Event) :
    holds ps (a ++ b) = holds ps a ++ holds (ps.afterEvents a) b := by
  induction a generalizing ps with
  | nil => rfl
  | cons e a ih =>
    cases e with
    | pin p m => simpa [holds, Pins.afterEvents, Pins.afterEvent] using ih (ps.set p m.code)
    | hold d => simpa [holds, Pins.afterEvents, Pins.afterEvent] using ih ps

/-- The instants of two stretches in a row are the instants of each. -/
theorem mem_instants_append {ps qs : Pins} {a b : List Event} :
    qs ∈ instants ps (a ++ b) ↔ qs ∈ instants ps a ∨ qs ∈ instants (ps.afterEvents a) b := by
  induction a generalizing ps with
  | nil =>
    cases b <;> simp [instants, Pins.afterEvents]
  | cons e a ih => simp [instants, ih, Pins.afterEvents, or_assoc]

theorem nominalLength_append (p : Params) (a b : List Event) :
    nominalLength p (a ++ b) = nominalLength p a + nominalLength p b := by
  induction a with
  | nil => simp [nominalLength]
  | cons e a ih => cases e <;> simp [nominalLength, ih, Nat.add_assoc]

theorem pinEvents_append (a b : List Event) : pinEvents (a ++ b) = pinEvents a + pinEvents b :=
  List.countP_append ..

/-! ## One slot and a frame -/

/-- What one slot appends to the trace (43_charlieplex.md R61). -/
def slotTrace (hi lo : Pin) (c : Bool) : List Event :=
  if c then [.pin hi .h, .pin lo .l, .hold .slot, .pin hi .z, .pin lo .z] else [.hold .slot]

/-- What a frame appends to the trace: its slots' stretches in order (43_charlieplex.md R64). -/
def frameTrace (pat : BitVec 12) : List Event :=
  slots.flatMap fun n => slotTrace (slotPair n).1 (slotPair n).2 (pat.getLsbD n.val)

/-- The state after a stretch of trace: pin registers and trace move together, nothing else moves. -/
def State.play (s : State) (seg : List Event) : State :=
  { s with pins := s.pins.afterEvents seg, trace := s.trace ++ seg }

@[simp] theorem State.play_params (s : State) (l : List Event) : (s.play l).params = s.params := rfl
@[simp] theorem State.play_tb (s : State) (l : List Event) : (s.play l).tb = s.tb := rfl
@[simp] theorem State.play_keyA (s : State) (l : List Event) : (s.play l).keyA = s.keyA := rfl
@[simp] theorem State.play_keyB (s : State) (l : List Event) : (s.play l).keyB = s.keyB := rfl
@[simp] theorem State.play_pins (s : State) (l : List Event) : (s.play l).pins = s.pins.afterEvents l := rfl
@[simp] theorem State.play_status (s : State) (l : List Event) : (s.play l).status = s.status := rfl
@[simp] theorem State.play_result (s : State) (l : List Event) : (s.play l).result = s.result := rfl
@[simp] theorem State.play_trace (s : State) (l : List Event) : (s.play l).trace = s.trace ++ l := rfl
@[simp] theorem State.play_ports (s : State) (l : List Event) : (s.play l).ports = s.ports := rfl
@[simp] theorem State.play_pending (s : State) (l : List Event) : (s.play l).pending = s.pending := rfl

theorem State.play_play (s : State) (a b : List Event) : (s.play a).play b = s.play (a ++ b) := by
  simp [State.play, Pins.afterEvents_append]

theorem State.pinWrite_eq_play (s : State) (p : Pin) (m : PinMode) : s.pinWrite p m = s.play [.pin p m] := rfl

theorem State.hold_eq_play (s : State) (d : Duration) : s.hold d = s.play [.hold d] := rfl

theorem lightSlot_eq_play (hi lo : Pin) (c : Bool) (s : State) : lightSlot hi lo c s = s.play (slotTrace hi lo c) := by
  cases c
  · rfl
  · simp [lightSlot, slotTrace, State.pinWrite_eq_play, State.hold_eq_play, State.play_play]

/-- The slots of any list played in order. -/
theorem foldl_lightSlot_eq_play (pat : BitVec 12) (l : List (Fin 12)) (s : State) :
    l.foldl (fun t n => lightSlot (slotPair n).1 (slotPair n).2 (pat.getLsbD n.val) t) s =
      s.play (l.flatMap fun n => slotTrace (slotPair n).1 (slotPair n).2 (pat.getLsbD n.val)) := by
  induction l generalizing s with
  | nil => simp [State.play, Pins.afterEvents]
  | cons n l ih => rw [List.foldl_cons, ih, lightSlot_eq_play, State.play_play, List.flatMap_cons]

theorem frameSlots_eq_play (pat : BitVec 12) (s : State) : frameSlots pat s = s.play (frameTrace pat) :=
  foldl_lightSlot_eq_play pat slots s

/-- One slot of a pair of distinct pins releases exactly its pair, or touches nothing. -/
theorem get_afterEvents_slotTrace (ps : Pins) {hi lo : Pin} (h : hi ≠ lo) (c : Bool) (q : Pin) :
    (ps.afterEvents (slotTrace hi lo c)).get q =
      if c = true ∧ (q = hi ∨ q = lo) then PinMode.z.code else ps.get q := by
  cases c
  · simp [slotTrace, Pins.afterEvents, Pins.afterEvent]
  · simp only [slotTrace, if_true, Pins.afterEvents, List.foldl_cons, List.foldl_nil, Pins.afterEvent]
    by_cases h1 : q = lo
    · subst h1; simp
    · rw [Pins.get_set_of_ne _ _ h1]
      by_cases h2 : q = hi
      · subst h2; simp
      · rw [Pins.get_set_of_ne _ _ h2, Pins.get_set_of_ne _ _ h1, Pins.get_set_of_ne _ _ h2]; simp [h1, h2]

/-- A slot entered with all pins floating leaves them so. -/
theorem afterEvents_slotTrace_floating {ps : Pins} (hz : ps.AllFloating) (hi lo : Pin) (h : hi ≠ lo) (c : Bool) :
    ps.afterEvents (slotTrace hi lo c) = ps := by
  refine Pins.ext_get fun q => ?_
  rw [get_afterEvents_slotTrace ps h c q, hz q, ite_self]

theorem slotPair_ne (n : Fin 12) : (slotPair n).1 ≠ (slotPair n).2 := by revert n; decide

end Sys2Proof.Machine
end

