-- ==== Sys2Proof/Laws/Step.lean ====
section
/-! SUPPORT. What a step can do, by the head of the owner's stream, and what each meaning can do. -/

namespace Sys2Proof.Machine

/-! ## Steps -/

theorem step_of_nothing_pending {s : State} (h : s.pending = []) : step s = .next s := by
  simp [step, stepPending, h]

theorem step_of_pending {s : State} {st : Stimulus} {rest : List Stimulus} (h : s.pending = st :: rest) :
    step s = respond st (s.setPending rest) := by simp [step, stepPending, h]

theorem respond_of_reset {st : Stimulus} (h : st.rst = true) (s : State) :
    respond st s = .next (s.setPorts st.ports).applyReset := by simp [respond, h]

theorem respond_of_pause {st : Stimulus} (h : st.rst = false) (hc : st.cmd = none) (s : State) :
    respond st s = .next (s.setPorts st.ports) := by simp [respond, h, hc]

theorem respond_of_word {st : Stimulus} {w : Word} (h : st.rst = false) (hc : st.cmd = some w) (s : State) :
    respond st s = runWord w (s.setPorts st.ports) := by simp [respond, h, hc]

theorem runWord_of_ok {w : Word} {i : Instr} (h : decode w = .ok i) (s : State) : runWord w s = exec i s := by
  simp [runWord, h]

theorem runWord_of_error {w : Word} {e : DecodeError} (h : decode w = .error e) (s : State) :
    runWord w s = .next (illegalCommand s) := by simp [runWord, h]

/-! ## What the checks around a meaning leave to say -/

/-- A state that differs from another in its result alone. -/
theorem setResult_sameRegisters (s : State) (r : Option Result) : SameRegisters s (s.setResult r) :=
  ⟨rfl, rfl, rfl, rfl, rfl⟩

theorem setResult_sameOutside (s : State) (r : Option Result) : SameOutside s (s.setResult r) := ⟨rfl, rfl, rfl⟩

/-- A halt taken after the previous result was withdrawn is a halt of the command. -/
theorem haltedWith_of_cleared (c : Cause) (s : State) : HaltedWith s (raiseHalt c (s.setResult none)) c.code :=
  raiseHalt_haltedWith c s

/-- What an operation of a running block can do: halt with a cause, complete on the TimeBase registers, complete on
one key, return a result alone, or play a stretch of trace. -/
inductive Effect (s : State) : State → Prop
  | halt (c : Cause) : Effect s (raiseHalt c s)
  | tick (tb : TimeBase) (d : Micros) (hr : tb.lastRaw = s.readRaw) (ht : s.tb.total ≤ tb.total) (hd : d = tb.total) :
      Effect s ((s.setTb tb).setResult (some (.elapsed d)))
  | accept (k : KeySel) (low : Bool) (h : low ≠ (s.key k).low) :
      Effect s ((s.setKey k { low := low, tLast := s.ports.now }).setResult (some (.state (edgeState low))))
  | returns (r : Result) : Effect s (s.setResult (some r))
  | play (seg : List Event) : Effect s (s.play seg)

theorem tickBody_effect (s : State) : Effect s (tickBody s) := by
  unfold tickBody
  simp only []
  split
  · exact .halt _
  · rename_i h
    refine .tick _ _ rfl ?_ rfl
    have h' : s.tb.total.toNat + scale s.params (subMod s.params.cw s.readRaw s.tb.lastRaw) < 2 ^ 64 := by
      simpa [durationLimit] using h
    rw [BitVec.le_def, BitVec.toNat_ofNat, Nat.mod_eq_of_lt h']
    exact Nat.le_add_right _ _

theorem updateBody_effect (k : KeySel) (s : State) : Effect s (updateBody k s) := by
  unfold updateBody
  split
  · exact .halt _
  · simp only []
    split
    · exact .accept _ _ ‹_ ∧ _›.1
    · exact .returns _

theorem lightBody_effect (hi lo : Pin) (c : Bool) (s : State) : Effect s (lightBody hi lo c s) := by
  unfold lightBody
  split
  · exact .halt _
  · rw [lightSlot_eq_play]; exact .play _

theorem gapBody_effect (b : BitVec 2) (s : State) : Effect s (gapBody b s) := by
  unfold gapBody
  split
  · rw [State.hold_eq_play]; exact .play _
  · exact .halt _

theorem unlessBadPin_effect {s : State} {body : State → State} (h : Effect s (body s)) :
    Effect s (unlessBadPin s body) := by
  rcases unlessBadPin_cases s body with ⟨-, e⟩ | ⟨-, e⟩ <;> rw [e]
  · exact .halt _
  · exact h

/-- An answer of `exec` in full: the command was ignored by a halted block, or it had one of the effects. -/
theorem exec_cases (i : Instr) (s : State) :
    ∃ t, exec i s = .next t ∧
      ((s.halted = true ∧ t = s.setResult none) ∨ (s.halted = false ∧ Effect (s.setResult none) t)) := by
  have key : ∀ body : State → State, Effect (s.setResult none) (body (s.setResult none)) →
      ∃ t, (Host.Outcome.next (unlessHalted s body) : Answer) = .next t ∧
        ((s.halted = true ∧ t = s.setResult none) ∨ (s.halted = false ∧ Effect (s.setResult none) t)) := by
    intro body hb
    rcases unlessHalted_cases s body with ⟨h, e⟩ | ⟨h, e⟩
    · exact ⟨_, rfl, .inl ⟨h, e⟩⟩
    · exact ⟨_, rfl, .inr ⟨h, e ▸ hb⟩⟩
  cases i with
  | tick => exact key _ (tickBody_effect _)
  | update k => exact key _ (updateBody_effect k _)
  | active st => exact key _ (.returns _)
  | float p => exact key _ (unlessBadPin_effect (.play [.pin p .z]))
  | drive p v => exact key _ (unlessBadPin_effect (.play [.pin p (drivenMode v)]))
  | light hi lo c => exact key _ (unlessBadPin_effect (lightBody_effect hi lo c _))
  | frame pat =>
    refine key _ (unlessBadPin_effect ?_)
    rw [frameSlots_eq_play]; exact .play _
  | gap b => exact key _ (unlessBadPin_effect (gapBody_effect b _))

/-- What one command word can do to the block: it is ignored, or it has one of the effects. -/
theorem runWord_cases (w : Word) (s : State) :
    ∃ t, runWord w s = .next t ∧
      ((s.halted = true ∧ t = s.setResult none) ∨ (s.halted = false ∧ Effect (s.setResult none) t)) := by
  cases h : decode w with
  | ok i => simpa only [runWord_of_ok h] using exec_cases i s
  | error e =>
    refine ⟨_, runWord_of_error h s, ?_⟩
    rcases unlessHalted_cases s (raiseHalt .illegalOp) with ⟨hs, e⟩ | ⟨hs, e⟩
    · exact .inl ⟨hs, e⟩
    · exact .inr ⟨hs, by rw [illegalCommand, e]; exact .halt _⟩

/-- The state in which the block answers the head of the owner's stream. -/
abbrev presented (s : State) (st : Stimulus) (rest : List Stimulus) : State := (s.setPending rest).setPorts st.ports

/-- Everything one step can do: nothing was pending; or the head of the stream was a reset, a pause, a command that a
halted block ignored, or a command with one of the effects. -/
theorem step_cases {s t : State} (h : step s = .next t) :
    (s.pending = [] ∧ t = s) ∨
      ∃ st rest, s.pending = st :: rest ∧
        ((st.rst = true ∧ t = (presented s st rest).applyReset) ∨
          (st.rst = false ∧
            (t = presented s st rest ∨ (s.halted = true ∧ t = (presented s st rest).setResult none) ∨
              (s.halted = false ∧ Effect ((presented s st rest).setResult none) t)))) := by
  cases hp : s.pending with
  | nil =>
    rw [step_of_nothing_pending hp] at h
    exact .inl ⟨rfl, by cases h; rfl⟩
  | cons st rest =>
    rw [step_of_pending hp] at h
    refine .inr ⟨st, rest, rfl, ?_⟩
    cases hr : st.rst with
    | true =>
      rw [respond_of_reset hr] at h
      exact .inl ⟨rfl, by cases h; rfl⟩
    | false =>
      refine .inr ⟨rfl, ?_⟩
      cases hc : st.cmd with
      | none =>
        rw [respond_of_pause hr hc] at h
        exact .inl (by cases h; rfl)
      | some w =>
        rw [respond_of_word hr hc] at h
        obtain ⟨u, hu, hcases⟩ := runWord_cases w (presented s st rest)
        rw [hu] at h
        cases h
        exact .inr hcases

end Sys2Proof.Machine
end

