-- ==== Sys2Proof/Laws/Run.lean ====
section
/-! SUPPORT. The induction over a run and over a script, once: a relation that holds of a state and itself and is kept by
every step holds along every run. -/

namespace Sys2Proof.Machine

/-- A run of k + 1 steps is a step and then a run of k. -/
theorem run_succ_eq_next {k : Nat} {s t : State} (h : Host.Core.run Sys2Proof.core (k + 1) s = .next t) :
    ∃ u, step s = .next u ∧ Host.Core.run Sys2Proof.core k u = .next t := by
  simp only [Host.Core.run] at h
  cases hs : step s with
  | next u =>
    rw [show Sys2Proof.core.step s = Host.Outcome.next u from hs] at h
    exact ⟨u, rfl, h⟩
  | fault r => cases r
  | refused r =>
    rw [show Sys2Proof.core.step s = Host.Outcome.refused r from hs] at h
    cases h

/-- Induction along a run. -/
theorem run_induction {P : State → State → Prop} (hrefl : ∀ s, P s s)
    (hstep : ∀ s t u, step s = .next t → P t u → P s u) :
    ∀ (k : Nat) (s t : State), Host.Core.run Sys2Proof.core k s = .next t → P s t
  | 0, s, t, h => by
    have e : s = t := Host.Outcome.next.inj h
    exact e ▸ hrefl s
  | k + 1, s, t, h => by
    obtain ⟨u, hu, hrun⟩ := run_succ_eq_next h
    exact hstep s u t hu (run_induction hrefl hstep k u t hrun)

/-- The first operation of a script, then the rest from the state it answers. -/
theorem trail_cons {x : Instr × Ports} {xs : List (Instr × Ports)} {s t : State}
    (h : exec x.1 (s.setPorts x.2) = .next t) : trail (x :: xs) s = t :: trail xs t := by
  simp only [trail, h]

/-- Induction along a script: a property kept by every operation of it holds of every state of its trail. -/
theorem trail_induction {P : State → Prop} (l : List (Instr × Ports)) (s : State) (hs : P s)
    (hstep : ∀ x ∈ l, ∀ u t, P u → exec x.1 (u.setPorts x.2) = .next t → P t) : ∀ t ∈ trail l s, P t := by
  induction l generalizing s with
  | nil => intro t ht; simp [trail] at ht
  | cons x xs ih =>
    obtain ⟨u, hu, -⟩ := exec_cases x.1 (s.setPorts x.2)
    rw [trail_cons hu]
    have hPu := hstep x List.mem_cons_self s u hs hu
    intro t ht
    rcases List.mem_cons.1 ht with rfl | ht
    · exact hPu
    · exact ih u hPu (fun y hy => hstep y (List.mem_cons_of_mem x hy)) t ht

end Sys2Proof.Machine
end

