-- ==== Sys2Proof/Laws/Meanings.lean ====
section
/-! SUPPORT. One spec lemma per meaning: everything it can do on a running block, and what a halted block does. -/

namespace Sys2Proof.Machine

/-! ## A halted block -/

/-- A halted block ignores every operation (60_exceptions.md R82). -/
theorem exec_of_halted {s : State} (h : s.halted = true) (i : Instr) : exec i s = .next (s.setResult none) := by
  obtain ⟨t, ht, ⟨_, e⟩ | ⟨h', _⟩⟩ := exec_cases i s
  · rw [ht, e]
  · rw [h] at h'; cases h'

/-- Along a script a halted block stays as it is and returns nothing. -/
theorem trail_of_halted (l : List (Instr × Ports)) (s : State) (h : s.halted = true) :
    ∀ t ∈ trail l s, SameRegisters s t ∧ t.trace = s.trace ∧ t.result = none := by
  induction l generalizing s with
  | nil => simp [trail]
  | cons x xs ih =>
    have e : exec x.1 (s.setPorts x.2) = .next ((s.setPorts x.2).setResult none) := exec_of_halted (by simpa using h) _
    rw [trail_cons e]
    intro t ht
    rcases List.mem_cons.1 ht with rfl | ht
    · exact ⟨⟨rfl, rfl, rfl, rfl, rfl⟩, rfl, rfl⟩
    · obtain ⟨a, b, c⟩ := ih _ (by simpa using h) t ht
      exact ⟨⟨a.tb, a.keyA, a.keyB, a.pins, a.status⟩, b, c⟩

/-! ## TICK -/

/-- `a -_N b` on values of N bits, as 00_scope.md R11 says it. -/
theorem subMod_eq {n a b : Nat} (ha : a < 2 ^ n) (hb : b < 2 ^ n) :
    subMod n a b = if b ≤ a then a - b else a + 2 ^ n - b := by
  simp only [subMod, BitVec.toNat_sub, BitVec.toNat_ofNat, Nat.mod_eq_of_lt ha, Nat.mod_eq_of_lt hb]
  split
  · rw [show 2 ^ n - b + a = (a - b) + 2 ^ n by omega, Nat.add_mod_right, Nat.mod_eq_of_lt (by omega)]
  · rw [Nat.mod_eq_of_lt (by omega)]; omega

theorem State.readRaw_lt (s : State) : s.readRaw < 2 ^ s.params.cw := Nat.mod_lt _ (Nat.two_pow_pos _)

/-- TICK on a running block: the sum does not fit and it halts, or the sum fits and is the new total and the result. -/
theorem execTick_cases {s : State} (h : s.halted = false) :
    let sum := s.tb.total.toNat + scale s.params (subMod s.params.cw s.readRaw s.tb.lastRaw)
    ∃ t, exec .tick s = .next t ∧
      ((2 ^ 64 ≤ sum ∧ t = raiseHalt .durationOverflow s) ∨
        (sum < 2 ^ 64 ∧ (BitVec.ofNat 64 sum).toNat = sum ∧
          t = (s.setTb { lastRaw := s.readRaw, total := BitVec.ofNat 64 sum }).setResult
            (some (.elapsed (BitVec.ofNat 64 sum))))) := by
  refine ⟨_, rfl, ?_⟩
  rw [unlessHalted_of_running h]
  unfold tickBody durationLimit
  dsimp only [State.setResult_readRaw, State.setResult_params, State.setResult_tb]
  split
  · exact .inl ⟨‹_›, rfl⟩
  · rename_i h'
    exact .inr ⟨Nat.lt_of_not_le h', by rw [BitVec.toNat_ofNat, Nat.mod_eq_of_lt (Nat.lt_of_not_le h')], rfl⟩

/-! ## UPDATE and ACTIVE -/

theorem levelIsLow_eq (l : Level) : levelIsLow l = decide (l = .low) := by cases l <;> rfl

theorem edgeState_code (b : Bool) : (edgeState b).code = if b then 0b11#2 else 0b10#2 := by cases b <;> rfl

theorem steadyState_code (b : Bool) : (steadyState b).code = if b then 0b01#2 else 0b00#2 := by cases b <;> rfl

/-- UPDATE k on a running block: `now` regressed and it halts, or the level is accepted, or it is not. -/
theorem execUpdate_cases {s : State} (h : s.halted = false) (k : KeySel) :
    let rawLow := decide (s.readBtn k = .low)
    let age := s.ports.now.toNat - (s.key k).tLast.toNat
    ∃ t, exec (.update k) s = .next t ∧
      ((s.ports.now < (s.key k).tLast ∧ t = raiseHalt .nowRegressed s) ∨
        ((s.key k).tLast ≤ s.ports.now ∧ rawLow ≠ (s.key k).low ∧ 50000 < age ∧
          t = (s.setKey k { low := rawLow, tLast := s.ports.now }).setResult (some (.state (edgeState rawLow)))) ∨
        ((s.key k).tLast ≤ s.ports.now ∧ (rawLow = (s.key k).low ∨ age ≤ 50000) ∧
          t = s.setResult
            (some (.state (steadyState (steadyLevel s.params.steadySrc rawLow (s.key k).low)))))) := by
  refine ⟨_, rfl, ?_⟩
  rw [unlessHalted_of_running h]
  unfold updateBody
  split
  · exact .inl ⟨by simpa using ‹_›, rfl⟩
  · rename_i h1
    have h1 : (s.key k).tLast ≤ s.ports.now := by simpa using h1
    right
    simp only [State.setResult_readBtn, State.setResult_key, State.setResult_ports, levelIsLow_eq, debounceWindow,
      State.setResult_params]
    split
    · rename_i h2
      refine .inl ⟨h1, h2.1, h2.2, ?_⟩
      cases k <;> rfl
    · rename_i h2
      refine .inr ⟨h1, ?_, rfl⟩
      by_cases hh : decide (s.readBtn k = .low) = (s.key k).low
      · exact .inl hh
      · exact .inr (Nat.le_of_not_lt fun hc => h2 ⟨hh, hc⟩)

theorem execActive_eq {s : State} (h : s.halted = false) (st : ButtonState) :
    exec (.active st) s = .next (s.setResult (some (.active (activeBit st)))) := by
  simp only [exec, execActive, unlessHalted_of_running h]
  rfl

/-! ## The pin operations, on a running block whose pin registers hold modes -/

theorem execFloat_eq {s : State} (h : s.halted = false) (hl : s.pins.Legal) (p : Pin) :
    exec (.float p) s = .next ((s.setResult none).play [.pin p .z]) := by
  simp only [exec, execFloat, unlessHalted_of_running h]
  rw [unlessBadPin_of_legal (by simpa using hl)]
  rfl

theorem execDrive_eq {s : State} (h : s.halted = false) (hl : s.pins.Legal) (p : Pin) (v : Level) :
    exec (.drive p v) s = .next ((s.setResult none).play [.pin p (drivenMode v)]) := by
  simp only [exec, execDrive, unlessHalted_of_running h]
  rw [unlessBadPin_of_legal (by simpa using hl)]
  rfl

theorem execLight_eq {s : State} (h : s.halted = false) (hl : s.pins.Legal) (hi lo : Pin) (c : Bool) :
    exec (.light hi lo c) s =
      .next (if hi = lo then raiseHalt .badPair s else (s.setResult none).play (slotTrace hi lo c)) := by
  simp only [exec, execLight, unlessHalted_of_running h]
  rw [unlessBadPin_of_legal (by simpa using hl), lightBody, lightSlot_eq_play]
  rfl

theorem execFrame_eq {s : State} (h : s.halted = false) (hl : s.pins.Legal) (pat : BitVec 12) :
    exec (.frame pat) s = .next ((s.setResult none).play (frameTrace pat)) := by
  simp only [exec, execFrame, unlessHalted_of_running h]
  rw [unlessBadPin_of_legal (by simpa using hl), frameSlots_eq_play]

theorem execGap_of_delay {s : State} (h : s.halted = false) (hl : s.pins.Legal) {b : BitVec 2} {d : Nat}
    (hb : interFrameDelay b = some d) : exec (.gap b) s = .next ((s.setResult none).play [.hold (.us d)]) := by
  simp only [exec, execGap, unlessHalted_of_running h]
  rw [unlessBadPin_of_legal (by simpa using hl), gapBody, hb]
  rfl

theorem execGap_of_no_delay {s : State} (h : s.halted = false) (hl : s.pins.Legal) {b : BitVec 2}
    (hb : interFrameDelay b = none) : exec (.gap b) s = .next (raiseHalt .badBrightness s) := by
  simp only [exec, execGap, unlessHalted_of_running h]
  rw [unlessBadPin_of_legal (by simpa using hl), gapBody, hb]
  rfl

/-- The pin operations, which check the pin registers on entry (60_exceptions.md R78). -/
abbrev checksPins (i : Instr) : Prop := isDisplay i = true ∨ isPinWrite i = true

/-- A pin register that holds the spare code halts every pin operation of a running block. -/
theorem exec_of_invalid_pin {s : State} (h : s.halted = false) (hp : ∃ p : Pin, s.pins.get p = invalidPinCode)
    {i : Instr} (hi : checksPins i) : exec i s = .next (raiseHalt .badPinMode s) := by
  have hp' : ∃ p : Pin, (s.setResult none).pins.get p = invalidPinCode := by simpa using hp
  cases i with
  | tick => simp [checksPins, isDisplay, isPinWrite] at hi
  | update k => simp [checksPins, isDisplay, isPinWrite] at hi
  | active st => simp [checksPins, isDisplay, isPinWrite] at hi
  | float p => simp only [exec, execFloat, unlessHalted_of_running h, unlessBadPin_of_invalid hp']; rfl
  | drive p v => simp only [exec, execDrive, unlessHalted_of_running h, unlessBadPin_of_invalid hp']; rfl
  | light a b c => simp only [exec, execLight, unlessHalted_of_running h, unlessBadPin_of_invalid hp']; rfl
  | frame pat => simp only [exec, execFrame, unlessHalted_of_running h, unlessBadPin_of_invalid hp']; rfl
  | gap b => simp only [exec, execGap, unlessHalted_of_running h, unlessBadPin_of_invalid hp']; rfl

end Sys2Proof.Machine
end

