-- ==== Sys2Proof/Laws/Owner.lean ====
section
/-! SUPPORT. What the owner's commands do: one command issued, commands in sequence, and the phases of an iteration. -/

namespace Sys2Proof.Machine

@[simp] theorem andThen_next (t : State) (f : State → Answer) : andThen (.next t) f = f t := rfl

/-- A command whose word decodes to `i` is `exec i` under the port values it is issued with. -/
theorem issue_of_decode {i j : Instr} (h : decode (encode i) = .ok j) (p : Ports) (s : State) :
    issue i p s = exec j (s.setPorts p) := by
  simp only [issue, respond, runWord, h, Bool.false_eq_true, if_false]

@[simp] theorem issueAll_nil (p : Ports) (s : State) : issueAll p [] s = .next s := rfl

/-- A sequence of commands is its first, then the rest from the state that one answers. -/
theorem issueAll_cons {p : Ports} {i : Instr} {is : List Instr} {s t : State} (h : issue i p s = .next t) :
    issueAll p (i :: is) s = issueAll p is t := by
  simp only [issueAll, h, andThen_next]

/-- A sequence of commands is one part of it, then the rest. -/
theorem issueAll_append (p : Ports) (is js : List Instr) (s : State) :
    issueAll p (is ++ js) s = andThen (issueAll p is s) (issueAll p js) := by
  induction is generalizing s with
  | nil => rfl
  | cons i is ih =>
    simp only [List.cons_append, issueAll]
    cases issue i p s with
    | next t => exact ih t
    | fault r => rfl
    | refused r => rfl

@[simp] theorem otherKey_ne (k : KeySel) : otherKey k ≠ k := by cases k <;> decide

/-- After its TICK an iteration issues one UPDATE for each key, ACTIVEs, one FRAME and one GAP, and nothing else. -/
theorem Iteration.mem_commands {x : Iteration} {i : Instr} :
    i ∈ x.commands ↔ i = .update .a ∨ i = .update .b ∨ (∃ st ∈ x.actives, .active st = i) ∨ i = .frame x.pat ∨
      i = .gap x.b := by
  cases hf : x.first <;> cases hg : x.gapFirst <;>
    simp [Iteration.commands, Iteration.updates, Iteration.display, otherKey, hf, hg, or_comm, or_left_comm, or_assoc]

/-- With key A first, no ACTIVE and the frame before the delay, an iteration is the pseudo-instruction `iter`
(30_encoding.md R44). -/
theorem Iteration.commands_of_iter {x : Iteration} (h1 : x.first = .a) (h2 : x.actives = []) (h3 : x.gapFirst = false) :
    .tick :: x.commands = iterCommands x.pat x.b := by
  simp [Iteration.commands, Iteration.updates, Iteration.display, iterCommands, otherKey, h1, h2, h3]

end Sys2Proof.Machine
end

