-- ==== Sys2Proof/Laws/PerInstr.lean ====
section
/-! SUPPORT. Statements about every instruction as syntax, one lemma per constructor. -/

namespace Sys2Proof.Laws.CommandLayout

/-- The opcode of an instruction (30_encoding.md R37). -/
def opcode : Instr → Nat
  | .tick => 1
  | .update _ => 2
  | .active _ => 3
  | .float _ => 4
  | .drive _ _ => 5
  | .light _ _ _ => 6
  | .frame _ => 7
  | .gap _ => 8

/-- The number of values the operand fields of an instruction spell, which stand in the low bits of its word. -/
def fieldSpan : Instr → Nat
  | .tick => 1
  | .update _ => 2
  | .active _ => 4
  | .float _ => 4
  | .drive _ _ => 8
  | .light _ _ _ => 32
  | .frame _ => 4096
  | .gap _ => 4

/-- A command word holds its operation's opcode in `cmd[15:12]`, and every bit of `cmd[11:0]` outside the operand
fields is 0 (30_encoding.md R37). -/
def Statement (i : Instr) : Prop :=
  (encode i).toNat / 4096 = opcode i ∧ (encode i).toNat % 4096 < fieldSpan i

theorem tick : Statement .tick := by
  unfold Statement; decide

theorem update (k : KeySel) : Statement (.update k) := by
  unfold Statement; cases k <;> decide

theorem active (st : ButtonState) : Statement (.active st) := by
  unfold Statement; cases st <;> decide

theorem float (p : Pin) : Statement (.float p) := by
  unfold Statement; revert p; decide

theorem drive (p : Pin) (v : Level) : Statement (.drive p v) := by
  unfold Statement; cases v <;> revert p <;> decide

theorem light (hi lo : Pin) (c : Bool) : Statement (.light hi lo c) := by
  unfold Statement; cases c <;> revert hi lo <;> decide

theorem frame (pat : BitVec 12) : Statement (.frame pat) := by
  have h := pat.isLt
  simp only [Statement, encode, opcode, fieldSpan, BitVec.toNat_ofNat]
  omega

theorem gap (b : BitVec 2) : Statement (.gap b) := by
  unfold Statement; revert b; decide

end Sys2Proof.Laws.CommandLayout
end

