-- ==== Sys2Proof/Tests/Slice0.lean ====
section
/-! SUPPORT. The model's own tests: ill-formed terms refused, words written out from the encodings, vectors of
95_test_vectors.md on single steps, and for every statement with hypotheses states and operands that meet them. -/

namespace Sys2Proof.Machine.Tests

/-! ## Helpers -/

/-- The answer is a next state of which the property holds. -/
def answers (a : Answer) (p : State → Bool) : Bool :=
  match a with
  | .next t => p t
  | .fault _ => false
  | .refused _ => false

/-- A running state with the given TimeBase registers and counter reading, CW = 32, F_TICK = 1 000 000. -/
def atTick (lastRaw : Nat) (total : Micros) (raw : Nat) : State :=
  { State.reset with tb := { lastRaw := lastRaw, total := total }, ports := { Ports.reset with raw := raw } }

/-- A running state whose key A, line and `now` are given. -/
def atUpdate (low : Bool) (tLast now : Micros) (level : Level) : State :=
  { State.reset with
    keyA := { low := low, tLast := tLast }
    ports := { Ports.reset with btnA := level, now := now } }

/-- A running state with the given pin registers. -/
def withPins (p0 p1 p2 p3 : BitVec 2) : State :=
  { State.reset with pins := { p0 := p0, p1 := p1, p2 := p2, p3 := p3 } }

/-- A state halted on a brightness index. -/
def haltedState : State := { State.reset with status := 0b0111#4 }

/-- The reference parameters with the other reading of the steady output. -/
def acceptedParams : Params := { Params.reference with steadySrc := .accepted }

/-- A command word presented under the reset port values. -/
def present (w : Word) : Stimulus := { rst := false, cmd := some w, ports := Ports.reset }

/-- `rst` asserted, with a command word standing on `cmd`. -/
def assertReset : Stimulus := { rst := true, cmd := some 0x1000#16, ports := Ports.reset }

/-- A pause. -/
def pause : Stimulus := { rst := false, cmd := none, ports := Ports.reset }

/-! ## WellFormed refuses an ill-formed term for each check (30_encoding.md R42) -/

theorem test_wellFormed_refuses_equal_pins : Instr.wellFormed (.light 1 1 true) = false := by decide
theorem test_wellFormed_refuses_brightness_3 : Instr.wellFormed (.gap 3#2) = false := by decide
theorem test_wellFormed_accepts : Instr.wellFormed (.light 2 0 true) = true ∧ Instr.wellFormed (.gap 2#2) = true := by
  decide

/-! ## Words written out from the patterns of 30_encoding.md R39 -/

theorem test_decode_tick : decode 0b0001000000000000#16 = .ok .tick := by decide
theorem test_decode_update : decode 0b0010000000000001#16 = .ok (.update .b) := by decide
theorem test_decode_active : decode 0b0011000000000001#16 = .ok (.active .down) := by decide
theorem test_decode_float : decode 0b0100000000000011#16 = .ok (.float 3) := by decide
theorem test_decode_drive : decode 0b0101000000000001#16 = .ok (.drive 1 .low) := by decide
theorem test_decode_light : decode 0b0110000000001101#16 = .ok (.light 3 1 false) := by decide
theorem test_decode_frame : decode 0b0111000001000000#16 = .ok (.frame 0x040#12) := by decide
theorem test_decode_gap : decode 0b1000000000000010#16 = .ok (.gap 2#2) := by decide
theorem test_decode_all_zero : decode 0x0000#16 = .error .reservedOpcode := by decide
theorem test_decode_all_one : decode 0xFFFF#16 = .error .reservedOpcode := by decide
theorem test_decode_light_reserved_bit : decode 0x6035#16 = .error .reservedBit := by decide
theorem test_decodeBytes_low_byte_first : decodeBytes [0x18#8, 0x60#8, 0xAA#8] = .ok (.light 2 0 true, [0xAA#8]) := by
  decide
theorem test_decodeTableWord : decodeTableWord 16 0x5006 = some (.drive 2 .high) := by decide

/-! ## TICK (95_test_vectors.md V-T3, V-T21) -/

theorem test_tick_across_the_wrap :
    answers (exec .tick (atTick 0xFFFFFFF0 4294967280#64 0x10)) (fun t =>
      t.resElapsed == some 4294967312#64 && t.tb.lastRaw == 0x10) = true := by decide
theorem test_tick_overflow_halts :
    answers (exec .tick (atTick 9 18446744073709551615#64 10)) (fun t =>
      t.status == 0b1101#4 && t.tb.lastRaw == 9) = true := by decide

/-! ## UPDATE (V-D4, V-D8 under ACCEPTED) -/

theorem test_update_accepts_after_50001 :
    answers (exec (.update .a) (atUpdate false 0#64 50001#64 .low)) (fun t =>
      t.resState == some 0b11#2 && t.keyA == { low := true, tLast := 50001#64 }) = true := by decide
theorem test_update_at_50000_reports_accepted :
    answers (exec (.update .a) { atUpdate true 50001#64 100001#64 .high with params := acceptedParams }) (fun t =>
      t.resState == some 0b01#2 && t.keyA == { low := true, tLast := 50001#64 }) = true := by decide

/-! ## ACTIVE (V-A2, V-A3) -/

theorem test_active_down : answers (exec (.active .down) State.reset) (fun t => t.resActive == some 0#1) = true := by
  decide
theorem test_active_released :
    answers (exec (.active .released) State.reset) (fun t => t.resActive == some 1#1) = true := by decide

/-! ## FLOAT and DRIVE (V-P5, V-X15, V-P3, V-P9) -/

theorem test_float_releases :
    answers (exec (.float 2) (withPins 0b10#2 0b00#2 0b11#2 0b00#2)) (fun t =>
      t.pins == ⟨0b10#2, 0b00#2, 0b00#2, 0b00#2⟩ && t.trace == [.pin 2 .z]) = true := by decide
theorem test_float_halts_on_the_spare_code :
    answers (exec (.float 1) (withPins 0b00#2 0b01#2 0b00#2 0b00#2)) (fun t =>
      t.cause == 2#3 && t.pins.p1 == 0b01#2 && t.trace == []) = true := by decide
theorem test_drive_replaces_the_level :
    answers (exec (.drive 0 .high) (withPins 0b10#2 0b00#2 0b11#2 0b00#2)) (fun t =>
      t.pins == ⟨0b11#2, 0b00#2, 0b11#2, 0b00#2⟩) = true := by decide
theorem test_drive_energises_led_1_3 :
    answers (exec (.drive 1 .high) (withPins 0b00#2 0b00#2 0b00#2 0b10#2)) (fun t =>
      t.pins.energised 1 3 && t.ledOe == 0b1010#4 && !t.pins.energised 3 1) = true := by decide

/-! ## LIGHT (V-L8, V-L7) -/

theorem test_light_leaves_a_driven_pin :
    answers (exec (.light 2 0 true) (withPins 0b00#2 0b11#2 0b00#2 0b00#2)) (fun t =>
      t.pins == ⟨0b00#2, 0b11#2, 0b00#2, 0b00#2⟩ &&
        t.trace == [.pin 2 .h, .pin 0 .l, .hold .slot, .pin 2 .z, .pin 0 .z]) = true := by decide
theorem test_light_checks_the_pair_before_the_condition :
    answers (exec (.light 1 1 false) State.reset) (fun t => t.cause == 4#3 && t.trace == []) = true := by decide

/-! ## FRAME (V-F3, V-F4) -/

theorem test_frame_005 :
    answers (exec (.frame 0x005#12) State.reset) (fun t =>
      t.trace == [.pin 0 .h, .pin 1 .l, .hold .slot, .pin 0 .z, .pin 1 .z, .hold .slot, .pin 0 .h, .pin 3 .l,
        .hold .slot, .pin 0 .z, .pin 3 .z] ++ List.replicate 9 (.hold .slot)) = true := by decide
theorem test_frame_fff_has_60_events :
    answers (exec (.frame 0xFFF#12) State.reset) (fun t =>
      t.trace.length == 60 && pinEvents t.trace == 48) = true := by decide

/-! ## GAP (V-G3, V-X17) -/

theorem test_gap_2_emits_a_zero_hold :
    answers (exec (.gap 2#2) State.reset) (fun t => t.trace == [.hold (.us 0)]) = true := by decide
theorem test_gap_checks_the_pins_before_the_index :
    answers (exec (.gap 3#2) (withPins 0b00#2 0b01#2 0b00#2 0b00#2)) (fun t => t.cause == 2#3) = true := by decide

/-! ## Steps (V-X10, V-X22, V-R1) and the placing of a word -/

theorem test_step_decodes_before_the_operand_check :
    answers (step (State.reset.withFetchWord 16 0x8013)) (fun t => t.status == 0b0011#4) = true := by decide
theorem test_step_halted_keeps_the_first_cause :
    answers (step (haltedState.withFetchWord 16 0x0000)) (fun t => t.cause == 3#3) = true := by decide
theorem test_step_reset :
    answers (step { withPins 0b10#2 0b00#2 0b11#2 0b00#2 with pending := [assertReset] }) (fun t =>
      t.pins == ⟨0b00#2, 0b00#2, 0b00#2, 0b00#2⟩ && t.tb.total == 0#64) = true := by decide
theorem test_withFetchWord_runs_next :
    answers (step (State.reset.withFetchWord 16 0x6018)) (fun t => t.trace.length == 5) = true := by decide

/-! ## Assembler (30_encoding.md R43, R44) -/

theorem test_assemble_light : assemble "LIGHT p2, p0, 1 ; slot 6".toList = some [0x6018#16] := by decide
theorem test_assemble_iter :
    assemble "iter 0x005, 0".toList = some [0x1000#16, 0x2000#16, 0x2001#16, 0x7005#16, 0x8000#16] := by decide
theorem test_assemble_drive_high : assemble "drive p1, high".toList = some [0x5005#16] := by decide
theorem test_assemble_refuses_gap_4 : assemble "gap 4".toList = none := by decide

/-! ## The owner's orders (44_loop_protocol.md R71, R74, R75) -/

theorem test_iteration_in_the_order_of_iter :
    .tick :: Iteration.commands ⟨0, .high, .high, .a, [], 0x005#12, 0#2, false⟩ = iterCommands 0x005#12 0#2 := by decide
theorem test_iteration_key_b_and_gap_first :
    Iteration.commands ⟨0, .high, .high, .b, [.pressed], 0x005#12, 0#2, true⟩ =
      [.update .b, .update .a, .active .pressed, .gap 0#2, .frame 0x005#12] := by decide

/-! ## Witnesses: states and operands that meet the hypotheses of each statement -/

theorem witness_DecodedWordIsTheInstructionsEncoding : ∃ (w : Word) (i : Instr), decode w = .ok i :=
  ⟨0x5007#16, .drive 3 .high, by decide⟩

theorem witness_ReservedOpcodesAndBitsHaltAsIllegal :
    State.reset.halted = false ∧ decode 0x8003#16 = .ok (.gap 3#2) ∧ decode 0x8004#16 = .error .reservedBit ∧
      decode 0x601F#16 = .ok (.light 3 3 true) ∧ decode 0x6020#16 = .error .reservedBit ∧
      decode 0x9000#16 = .error .reservedOpcode ∧ decode 0x0FFF#16 = .error .reservedOpcode := by decide

theorem witness_SlotTableIsLexicographicInPairs : ∃ hi lo : Pin, hi ≠ lo := ⟨0, 3, by decide⟩

theorem witness_StepRunsTheDecodedCommand :
    ∃ (s : State) (st : Stimulus) (rest : List Stimulus) (w : Word) (i : Instr),
      s.pending = st :: rest ∧ st.rst = false ∧ st.cmd = some w ∧ decode w = .ok i :=
  ⟨{ State.reset with pending := [present 0x8003#16] }, present 0x8003#16, [], 0x8003#16, .gap 3#2, by decide⟩

theorem witness_StepHaltsOnAnIllegalWord :
    ∃ (s : State) (st : Stimulus) (rest : List Stimulus) (w : Word) (e : DecodeError),
      s.pending = st :: rest ∧ st.rst = false ∧ st.cmd = some w ∧ decode w = .error e ∧ s.halted = false :=
  ⟨{ State.reset with pending := [present 0x0000#16] }, present 0x0000#16, [], 0x0000#16, .reservedOpcode, by decide⟩

theorem witness_ResetRequestRestoresEveryRegister :
    ∃ (s : State) (st : Stimulus) (rest : List Stimulus), s.pending = st :: rest ∧ st.rst = true :=
  ⟨{ haltedState with pending := [assertReset] }, assertReset, [], by decide⟩

theorem witness_PauseLeavesTheBlockUnchanged :
    State.reset.pending = [] ∧
      ∃ (s : State) (st : Stimulus) (rest : List Stimulus), s.pending = st :: rest ∧ st.rst = false ∧ st.cmd = none :=
  ⟨rfl, { State.reset with pending := [pause] }, pause, [], by decide⟩

theorem witness_EveryStepKeepsTheRegisterInvariant : ∃ s t : State, s.Inv ∧ step s = .next t :=
  ⟨State.reset.withFetchWord 16 0x6018, _, ⟨by decide, by decide, by decide⟩, rfl⟩

theorem witness_BuildParametersNeverChange : ∃ s t : State, Host.Core.run Sys2Proof.core 2 s = .next t :=
  ⟨{ State.reset with pending := [present 0x5006#16, present 0x5000#16] }, _, rfl⟩

theorem witness_TickAddsTheScaledModularDelta :
    (∃ s : State, s.halted = false ∧ s.tb.lastRaw < 2 ^ s.params.cw ∧ s.ports.raw = 9 ∧ s.tb.lastRaw = 0 ∧
      s.tb.total.toNat + (9 - 0) * 1000000 / s.params.fTick = 2 ^ 64 - 1) ∧
    (∃ s : State, s.halted = false ∧ s.tb.lastRaw < 2 ^ s.params.cw ∧ s.ports.raw = 10 ∧ s.tb.lastRaw = 9 ∧
      s.tb.total.toNat + (10 - 9) * 1000000 / s.params.fTick = 2 ^ 64) :=
  ⟨⟨atTick 0 18446744073709551606#64 9, by decide⟩, ⟨atTick 9 18446744073709551615#64 10, by decide⟩⟩

theorem witness_ScaleIsExactFloorWithItsLaws :
    ({ Params.reference with fTick := 6000000, fTick_pos := by decide } : Params).fTick = 6000000 ∧
      ({ Params.reference with fTick := 32768, fTick_pos := by decide } : Params).fTick = 32768 ∧
      ({ Params.reference with fTick := 48000000, fTick_pos := by decide } : Params).fTick = 48000000 ∧
      Params.reference.fTick = 1000000 := by decide

theorem witness_ElapsedDurationNeverDecreases :
    State.reset.halted = false ∧
      ∃ s t : State, (∀ st ∈ s.pending, st.rst = false) ∧ Host.Core.run Sys2Proof.core 1 s = .next t :=
  ⟨by decide, { State.reset with pending := [present 0x1000#16] }, _, by decide, rfl⟩

theorem witness_TickDropsWholeCounterPeriods :
    ∃ (s : State) (c n : Nat), s.halted = false ∧ s.tb.lastRaw = c % 2 ^ s.params.cw ∧ s.ports.raw = c + n ∧
      s.tb.total.toNat + scale s.params (n % 2 ^ s.params.cw) < 2 ^ 64 ∧ 2 ^ s.params.cw ≤ n :=
  ⟨atTick 5 0#64 (5 + (2 ^ 32 + 7)), 5, 2 ^ 32 + 7, by decide⟩

theorem witness_SubMicrosecondTickIsLost :
    ∃ (s : State) (d : Nat), s.halted = false ∧ s.tb.lastRaw + d < 2 ^ s.params.cw ∧
      s.ports.raw = s.tb.lastRaw + d ∧ d * 1000000 < s.params.fTick ∧ 0 < d :=
  ⟨{ atTick 13 2#64 18 with params := { Params.reference with fTick := 6000000, fTick_pos := by decide } }, 5,
    by decide⟩

theorem witness_UpdateFollowsTheDebounceAlgorithm :
    (∃ s : State, s.halted = false ∧ s.ports.now < (s.key .a).tLast) ∧
    (∃ s : State, s.halted = false ∧ (s.key .a).tLast ≤ s.ports.now ∧
      decide (s.readBtn .a = .low) ≠ (s.key .a).low ∧ 50000 < s.ports.now.toNat - (s.key .a).tLast.toNat) ∧
    (∃ s : State, s.halted = false ∧ (s.key .a).tLast ≤ s.ports.now ∧
      decide (s.readBtn .a = .low) ≠ (s.key .a).low ∧ s.ports.now.toNat - (s.key .a).tLast.toNat = 50000) ∧
    (∃ s : State, s.halted = false ∧ (s.key .a).tLast ≤ s.ports.now ∧
      decide (s.readBtn .a = .low) = (s.key .a).low ∧ s.ports.now = 18446744073709551615#64) :=
  ⟨⟨atUpdate true 70000#64 69999#64 .low, by decide⟩, ⟨atUpdate false 0#64 50001#64 .low, by decide⟩,
    ⟨atUpdate false 0#64 50000#64 .low, by decide⟩, ⟨atUpdate true 5#64 18446744073709551615#64 .low, by decide⟩⟩

theorem witness_ActiveIsTrueOfEdgeStatesOnly : State.reset.halted = false := by decide

theorem witness_EdgeStatesAlternateOnePerAcceptedTransition :
    ∃ s t : State, s.halted = false ∧ exec (.update .a) s = .next t :=
  ⟨atUpdate false 0#64 50001#64 .low, _, by decide, rfl⟩

theorem witness_NoTransitionIsAcceptedInTheLockout :
    ∃ (l : List Sample) (s : State), s.halted = false ∧ l ≠ [] ∧
      (∀ x ∈ l, x.now.toNat ≤ (s.key .a).tLast.toNat + 50000) ∧ trail (l.map (Sample.command .a)) s ≠ [] :=
  ⟨[{ now := 100001#64, level := .high }], atUpdate true 50001#64 50001#64 .low, by decide⟩

theorem witness_SustainedLevelGivesOneEdgeThenSteady :
    ∃ (lvl : Level) (early late : List Sample) (x : Sample) (s : State), s.halted = false ∧
      decide (lvl = .low) ≠ (s.key .a).low ∧ early ≠ [] ∧ late ≠ [] ∧
      (∀ y ∈ early, y.level = lvl ∧ (s.key .a).tLast ≤ y.now ∧ y.now.toNat ≤ (s.key .a).tLast.toNat + 50000) ∧
      x.level = lvl ∧ (s.key .a).tLast.toNat + 50000 < x.now.toNat ∧ (∀ y ∈ late, y.level = lvl ∧ x.now ≤ y.now) :=
  ⟨.low, [{ now := 50000#64, level := .low }], [{ now := 60000#64, level := .low }],
    { now := 50001#64, level := .low }, State.reset, by decide⟩

theorem witness_KeysAreIndependent :
    (∃ (s t : State) (k j : KeySel), j ≠ k ∧ exec (.update k) s = .next t) ∧
    (∃ (s s' t t' : State) (k : KeySel), s'.key k = s.key k ∧ s'.readBtn k = s.readBtn k ∧
      s'.ports.now = s.ports.now ∧ s'.params.steadySrc = s.params.steadySrc ∧ s'.halted = s.halted ∧
      exec (.update k) s = .next t ∧ exec (.update k) s' = .next t') :=
  ⟨⟨State.reset, _, .a, .b, by decide, rfl⟩,
    ⟨atUpdate false 0#64 50001#64 .low,
      { atUpdate false 0#64 50001#64 .low with keyB := { low := true, tLast := 70000#64 } }, _, _, .a, rfl, rfl, rfl, rfl,
      rfl, rfl, rfl⟩⟩

theorem witness_SteadySourceChangesSteadyOutputOnly :
    ∃ (s t t' : State) (p : Params), exec (.update .a) s = .next t ∧
      exec (.update .a) { s with params := p } = .next t' ∧ p.steadySrc ≠ s.params.steadySrc :=
  ⟨atUpdate false 0#64 20000#64 .low, _, _, acceptedParams, rfl, rfl, by decide⟩

theorem witness_OrderOfTheTwoUpdatesIsIrrelevant :
    ∃ s : State, s.halted = false ∧ s.keyA.tLast ≤ s.ports.now ∧ s.keyB.tLast ≤ s.ports.now :=
  ⟨atUpdate true 60000#64 60000#64 .high, by decide⟩

theorem witness_NoTransitionIsAcceptedSoonAfterReset :
    ∃ ports : Ports, ports.now.toNat ≤ 50000 := ⟨{ Ports.reset with btnA := .low, now := 50000#64 }, by decide⟩

theorem witness_FloatReleasesOnePin :
    (State.reset.halted = false ∧ ∀ q : Pin, State.reset.pins.get q ≠ 0b01#2) ∧
    ((withPins 0b00#2 0b01#2 0b00#2 0b00#2).halted = false ∧
      ∃ q : Pin, (withPins 0b00#2 0b01#2 0b00#2 0b00#2).pins.get q = 0b01#2) := by decide

theorem witness_DriveSetsOnePin :
    (State.reset.halted = false ∧ ∀ q : Pin, State.reset.pins.get q ≠ 0b01#2) ∧
    ((withPins 0b00#2 0b00#2 0b00#2 0b01#2).halted = false ∧
      ∃ q : Pin, (withPins 0b00#2 0b00#2 0b00#2 0b01#2).pins.get q = 0b01#2) := by decide

theorem witness_TraceTellsThePinRegisters : ∃ (i : Instr) (s t : State), exec i s = .next t :=
  ⟨.light 2 0 true, State.reset, _, rfl⟩

theorem witness_InvariantLightsAtMostOneLed :
    (∃ (ps : Pins) (i j : Pin), ps.Electrical ∧ ps.energised i j = true) ∧
    (∃ (s t : State) (p : Pin), s.pins.Electrical ∧ exec (.float p) s = .next t) :=
  ⟨⟨⟨0b10#2, 0b00#2, 0b11#2, 0b00#2⟩, 2, 0, by decide⟩,
    ⟨withPins 0b10#2 0b00#2 0b11#2 0b00#2, _, 2, by decide, rfl⟩⟩

theorem witness_LightHoldsOneSlot :
    (State.reset.halted = false ∧ (∀ q : Pin, State.reset.pins.get q ≠ 0b01#2) ∧ (0 : Pin) ≠ 3 ∧ (1 : Pin) = 1) ∧
    ((withPins 0b01#2 0b00#2 0b00#2 0b00#2).halted = false ∧
      ∃ q : Pin, (withPins 0b01#2 0b00#2 0b00#2 0b00#2).pins.get q = 0b01#2) := by decide

theorem witness_LightEnergisesExactlyItsLed :
    State.reset.halted = false ∧ State.reset.pins.AllFloating ∧ (3 : Pin) ≠ 2 := by decide

theorem witness_DisplayOperationsKeepTheInvariant :
    ∃ (i : Instr) (s t : State), isDisplay i = true ∧ s.pins.AllFloating ∧ exec i s = .next t :=
  ⟨.frame 0x801#12, State.reset, _, by decide, by decide, rfl⟩

theorem witness_AtMostOneLedIsEverEnergisedFromReset :
    ∃ (l : List (Instr × Ports)), (∀ x ∈ l, isPinWrite x.1 = false) ∧
      trail l (State.resetWith Params.reference) ≠ [] :=
  ⟨[(.light 2 0 true, Ports.reset)], by decide⟩

theorem witness_EveryStepWithoutDriveLightsAtMostOneLed :
    (∃ s t : State, s.DriveFree ∧ step s = .next t ∧ t.trace.length = 5) ∧
    (∃ (s t : State) (st : Stimulus) (rest : List Stimulus), s.DriveFree ∧ s.pending = st :: rest ∧ st.rst = true ∧
      step s = .next t) :=
  ⟨⟨{ State.reset with pending := [present 0x6018#16] }, _, ⟨by decide, by
      intro st h w p v hw hd
      obtain rfl := List.mem_singleton.1 h
      obtain rfl : 0x6018#16 = w := Option.some.inj hw
      rw [show decode 0x6018#16 = .ok (.light 2 0 true) by decide] at hd; cases hd⟩, rfl, by decide⟩,
    ⟨{ State.reset with pending := [assertReset] }, _, assertReset, [], ⟨by decide, by
      intro st h w p v hw hd
      obtain rfl := List.mem_singleton.1 h
      obtain rfl : 0x1000#16 = w := Option.some.inj hw
      rw [show decode 0x1000#16 = .ok .tick by decide] at hd; cases hd⟩, rfl, rfl, rfl⟩⟩

theorem witness_FrameIsTwelveLightsInSlotOrder :
    (State.reset.halted = false ∧ ∀ q : Pin, State.reset.pins.get q ≠ 0b01#2) ∧
    ((withPins 0b00#2 0b00#2 0b01#2 0b00#2).halted = false ∧
      ∃ q : Pin, (withPins 0b00#2 0b00#2 0b01#2 0b00#2).pins.get q = 0b01#2) := by decide

theorem witness_FramePeriodIsContentIndependent : State.reset.halted = false ∧ State.reset.pins.Legal := by decide

theorem witness_GapHoldsTheDelayOfTheIndex :
    (State.reset.halted = false ∧ (∀ q : Pin, State.reset.pins.get q ≠ 0b01#2) ∧ (2#2 : BitVec 2) ≠ 3#2) ∧
    ((withPins 0b00#2 0b01#2 0b00#2 0b00#2).halted = false ∧
      ∃ q : Pin, (withPins 0b00#2 0b01#2 0b00#2 0b00#2).pins.get q = 0b01#2) := by decide

theorem witness_BrightnessCycleReturnsToItsDelay : State.reset.halted = false ∧ State.reset.pins.Legal := by decide

theorem witness_FrameThenGapTraceShowsThePattern :
    State.reset.halted = false ∧ State.reset.pins.AllFloating ∧ (0#2 : BitVec 2) ≠ 3#2 := by decide

theorem witness_HaltWritesNothingButStatus :
    ∃ (i : Instr) (s t : State), s.halted = false ∧ exec i s = .next t ∧ t.halted = true :=
  ⟨.gap 3#2, State.reset, _, by decide, rfl, by decide⟩

theorem witness_HaltCauseIsTheFirstFailingCheck :
    haltedState.halted = true ∧ State.reset.halted = false ∧
      expectedWordCause 0x8013#16 State.reset = some 1#3 ∧ expectedWordCause 0x8003#16 State.reset = some 3#3 ∧
      expectedWordCause 0x8003#16 (withPins 0b00#2 0b01#2 0b00#2 0b00#2) = some 2#3 ∧
      expectedWordCause 0x6015#16 State.reset = some 4#3 ∧
      expectedWordCause 0x2000#16 (atUpdate true 70000#64 69999#64 .low) = some 5#3 ∧
      expectedWordCause 0x1000#16 (atTick 9 18446744073709551615#64 10) = some 6#3 ∧
      expectedWordCause 0x8002#16 State.reset = none := by decide

theorem witness_HaltedBlockIgnoresEveryCommand : haltedState.halted = true := by decide

theorem witness_OnlyResetLeavesTheHalt :
    (∃ s t : State, s.halted = true ∧ s.pending ≠ [] ∧ (∀ st ∈ s.pending, st.rst = false) ∧
      Host.Core.run Sys2Proof.core 1 s = .next t) ∧
    (∃ s t : State, s.halted = true ∧ step s = .next t ∧ t.halted = false) ∧
    (∃ (s : State) (st : Stimulus) (rest : List Stimulus), s.pending = st :: rest ∧ st.rst = true) :=
  ⟨⟨{ haltedState with pending := [present 0x1000#16] }, _, by decide, by decide, by decide, rfl⟩,
    ⟨{ haltedState with pending := [assertReset] }, _, by decide, rfl, by decide⟩,
    ⟨{ haltedState with pending := [assertReset] }, assertReset, [], by decide⟩⟩

theorem witness_PortsAreSampledOnlyByTheirOperation :
    ∃ (s t t' : State) (p : Ports), exec .tick s = .next t ∧ exec .tick (s.setPorts p) = .next t' ∧
      p.raw % 2 ^ s.params.cw = s.ports.raw % 2 ^ s.params.cw ∧ p ≠ s.ports :=
  ⟨State.reset, _, _, { Ports.reset with btnA := .low, raw := 2 ^ 32, now := 7#64 }, rfl, rfl, by decide, by decide⟩

theorem witness_ProtocolIterationEndsReady :
    ∃ (x : Iteration) (s : State), s.ProtocolReady ∧ x.b ≠ 3#2 ∧
      s.tb.total.toNat + scale s.params (subMod s.params.cw (x.raw % 2 ^ s.params.cw) s.tb.lastRaw) < 2 ^ 64 :=
  ⟨{ raw := 60000, btnA := .low, btnB := .high, first := .b, actives := [.pressed], pat := 0x005#12, b := 0#2,
      gapFirst := true }, State.reset,
    ⟨by decide, by decide, by decide, by decide⟩, by decide, by decide⟩

theorem witness_KeyOrderOfAnIterationIsIrrelevant : ∃ s : State, s.ProtocolReady ∧ s.keyA.tLast ≠ s.keyB.tLast :=
  ⟨{ State.reset with
      tb := { lastRaw := 9, total := 60000#64 }
      keyA := { low := true, tLast := 60000#64 } }, ⟨by decide, by decide, by decide, by decide⟩, by decide⟩

theorem witness_EveryIterationKeepsTheProtocol :
    (∃ s : State, s.ProtocolKept ∧ s.halted = false) ∧ (∃ s : State, s.ProtocolKept ∧ s.cause = 3#3) ∧
      (∃ s : State, s.ProtocolKept ∧ s.cause = 6#3) :=
  ⟨⟨State.reset, ⟨by decide, .inl ⟨by decide, by decide, by decide, by decide⟩⟩, by decide⟩,
    ⟨haltedState, ⟨by decide, .inr ⟨by decide, .inl (by decide)⟩⟩, by decide⟩,
    ⟨{ State.reset with status := 0b1101#4 }, ⟨by decide, .inr ⟨by decide, .inr (by decide)⟩⟩, by decide⟩⟩

end Sys2Proof.Machine.Tests
end

section
/-! The elapsed duration never decreases (40_timebase.md R47): per TICK and along a script of TICKs, per step and along
a run. -/

namespace Sys2Proof.Machine

/-! ## Along a script of TICKs -/

/-- TICK in any state returns nothing and keeps the total, or returns the new total, which is not below the old. -/
theorem execTick_result_and_total (s : State) :
    ∃ t, exec .tick s = .next t ∧
      ((t.result = none ∧ t.tb.total = s.tb.total) ∨
        (t.result = some (.elapsed t.tb.total) ∧ s.tb.total.toNat ≤ t.tb.total.toNat)) := by
  cases h : s.halted with
  | true => exact ⟨_, exec_of_halted h .tick, .inl ⟨rfl, rfl⟩⟩
  | false =>
    obtain ⟨t, ht, ⟨-, rfl⟩ | ⟨-, hsum, rfl⟩⟩ := execTick_cases h
    · exact ⟨_, ht, .inl ⟨rfl, rfl⟩⟩
    · refine ⟨_, ht, .inr ⟨rfl, ?_⟩⟩
      simp only [State.setResult_tb, State.setTb_tb, hsum]
      exact Nat.le_add_right _ _

theorem returnedElapsed_cons_of_none {t : State} (h : t.result = none) (l : List State) :
    returnedElapsed (t :: l) = returnedElapsed l := by simp [returnedElapsed, h]

theorem returnedElapsed_cons_of_elapsed {t : State} {d : Micros} (h : t.result = some (.elapsed d)) (l : List State) :
    returnedElapsed (t :: l) = d.toNat :: returnedElapsed l := by simp [returnedElapsed, h]

/-- The starting total and the durations that TICKs return after it, running or halted, each at most the next. -/
theorem returnedElapsed_ticks_isChain (readings : List Ports) (s : State) :
    List.IsChain (· ≤ ·)
      (s.tb.total.toNat :: returnedElapsed (trail (readings.map fun p => (.tick, p)) s)) := by
  induction readings generalizing s with
  | nil => exact .singleton _
  | cons p ps ih =>
    obtain ⟨t, ht, hcases⟩ := execTick_result_and_total (s.setPorts p)
    rw [List.map_cons, trail_cons ht]
    rcases hcases with ⟨hres, htotal⟩ | ⟨hres, hle⟩
    · rw [returnedElapsed_cons_of_none hres]
      exact (congrArg BitVec.toNat htotal) ▸ ih t
    · rw [returnedElapsed_cons_of_elapsed hres]
      exact .cons_cons hle (ih t)

/-! ## Along a run of steps -/

/-- No operation of a running block lowers the total: TICK alone writes it. -/
theorem Effect.total_le {s t : State} (h : Effect s t) : s.tb.total ≤ t.tb.total := by
  cases h with
  | tick tb d _ ht _ => exact ht
  | accept k low _ => simp
  | halt | returns | play => exact BitVec.le_refl _

/-- What the owner is still to do is outside the block: no operation touches it. -/
theorem Effect.pending_eq {s t : State} (h : Effect s t) : t.pending = s.pending := by
  cases h with
  | accept k low _ => simp
  | halt | tick | returns | play => rfl

/-- `rst` is not asserted in anything that the owner is still to do. -/
abbrev State.ResetFree (s : State) : Prop := ∀ st ∈ s.pending, st.rst = false

/-- A step short of reset does not lower the total, and no reset is to come after it. -/
theorem step_total_le_of_resetFree {s t : State} (hs : s.ResetFree) (h : step s = .next t) :
    s.tb.total ≤ t.tb.total ∧ t.ResetFree := by
  rcases step_cases h with ⟨-, rfl⟩ | ⟨st, rest, hp, hcases⟩
  · exact ⟨BitVec.le_refl _, hs⟩
  · have hs' : ∀ x ∈ st :: rest, x.rst = false := hp ▸ hs
    obtain ⟨hst, hrest⟩ := List.forall_mem_cons.1 hs'
    rcases hcases with ⟨hr, -⟩ | ⟨-, rfl | ⟨-, rfl⟩ | ⟨-, he⟩⟩
    · simp [hst] at hr
    · exact ⟨BitVec.le_refl _, hrest⟩
    · exact ⟨BitVec.le_refl _, hrest⟩
    · have hpending : t.pending = rest := he.pending_eq
      exact ⟨he.total_le, fun x hx => hrest x (hpending ▸ hx)⟩

theorem run_total_le_of_resetFree {k : Nat} {s t : State} (hs : s.ResetFree)
    (h : Host.Core.run Sys2Proof.core k s = .next t) : s.tb.total ≤ t.tb.total := by
  refine run_induction (P := fun s t => s.ResetFree → s.tb.total ≤ t.tb.total) ?_ ?_ k s t h hs
  · exact fun s _ => BitVec.le_refl _
  · intro s u t hstep ih hs
    obtain ⟨hle, ht⟩ := step_total_le_of_resetFree hs hstep
    exact BitVec.le_trans hle (ih ht)

/-- Settles O18: the durations of TICKs by induction on the counter readings, `tb.total` by induction along the run. -/
theorem elapsedDurationNeverDecreases : Obligations.ElapsedDurationNeverDecreases := by
  unfold Obligations.ElapsedDurationNeverDecreases
  constructor
  · exact fun s readings _ => (returnedElapsed_ticks_isChain readings s).pairwise
  · exact fun k s t hs h => run_total_le_of_resetFree hs h

end Sys2Proof.Machine
end

section
/-! ACTIVE returns bit 1 of its operand and changes nothing else (41_debounce.md R50). -/

namespace Sys2Proof.Machine

/-- The word `0x3000 + s` of ACTIVE s decodes to it, for all four codes. -/
theorem decode_encode_active (st : ButtonState) : decode (encode (.active st)) = .ok (.active st) := by
  cases st <;> decide

/-- Bit 1 of a ButtonState code marks the two edge states. -/
theorem ofBool_activeBit (st : ButtonState) :
    BitVec.ofBool (activeBit st) = if st = .released ∨ st = .pressed then 1#1 else 0#1 := by
  cases st <;> decide

/-- Settles O22: on a running block ACTIVE writes its result alone, which is bit 1 of the operand's code. -/
theorem activeIsTrueOfEdgeStatesOnly : Obligations.ActiveIsTrueOfEdgeStatesOnly := by
  unfold Obligations.ActiveIsTrueOfEdgeStatesOnly
  refine ⟨decode_encode_active .up, decode_encode_active .down, decode_encode_active .released,
    decode_encode_active .pressed, fun s st h => ?_⟩
  have hres : (s.setResult (some (.active (activeBit st)))).resActive =
      some (if st = .released ∨ st = .pressed then 1#1 else 0#1) := by
    rw [State.resActive_of_active, ofBool_activeBit]
  exact ⟨_, execActive_eq h st, hres, setResult_sameRegisters s _, rfl, setResult_sameOutside s _⟩

end Sys2Proof.Machine
end

section
/-! FLOAT and DRIVE each write one pin register in one step, and halt on a spare pin code (42_dynamic_pin.md R56, R57). -/

namespace Sys2Proof.Machine

/-- The word `0x4000 + p` of FLOAT p decodes to it, for all four pins. -/
theorem decode_encode_float (p : Pin) : decode (encode (.float p)) = .ok (.float p) := by
  revert p; decide

/-- The word `0x5000 + 4·v + p` of DRIVE p, v decodes to it, for all pins and both levels. -/
theorem decode_encode_drive (p : Pin) (v : Level) : decode (encode (.drive p v)) = .ok (.drive p v) := by
  cases v <;> revert p <;> decide

theorem drivenMode_eq (v : Level) : drivenMode v = if v = .high then .h else .l := by cases v <;> rfl

theorem drivenMode_code (v : Level) : (drivenMode v).code = if v = .high then 0b11#2 else 0b10#2 := by
  cases v <;> rfl

/-- One pin event, played after the previous result was withdrawn: its pin takes the mode, the trace gains the event,
and nothing else moves. -/
theorem play_pin_frame {s t : State} {p : Pin} {m : PinMode} (ht : t = (s.setResult none).play [.pin p m]) :
    t.pins.get p = m.code ∧ (∀ q, q ≠ p → t.pins.get q = s.pins.get q) ∧ t.trace = s.trace ++ [.pin p m] ∧
      t.result = none ∧ t.tb = s.tb ∧ t.keyA = s.keyA ∧ t.keyB = s.keyB ∧ t.status = s.status ∧ SameOutside s t := by
  subst ht
  exact ⟨Pins.get_set_self s.pins p m.code, fun q hq => Pins.get_set_of_ne s.pins m.code hq,
    rfl, rfl, rfl, rfl, rfl, rfl, ⟨rfl, rfl, rfl⟩⟩

/-- On a running block with a spare code in a pin register, every pin operation is a BAD_PIN_MODE halt. -/
theorem exec_haltedWith_of_invalid_pin {s : State} (h : s.halted = false)
    (hp : ∃ p : Pin, s.pins.get p = invalidPinCode) {i : Instr} (hi : checksPins i) :
    ∃ t, exec i s = .next t ∧ HaltedWith s t Cause.badPinMode.code :=
  ⟨_, exec_of_invalid_pin h hp hi, raiseHalt_haltedWith .badPinMode s⟩

/-- Settles O30: with legal pins FLOAT p plays the one event `pin(p, Z)`; with a spare code it halts. -/
theorem floatReleasesOnePin : Obligations.FloatReleasesOnePin := by
  unfold Obligations.FloatReleasesOnePin
  refine ⟨decode_encode_float, fun s p h => ⟨fun hl => ?_, fun hp => ?_⟩⟩
  · exact ⟨_, execFloat_eq h hl p, play_pin_frame rfl⟩
  · exact exec_haltedWith_of_invalid_pin h hp (.inr rfl)

/-- Settles O31: with legal pins DRIVE p, v plays the one event of its driven mode; with a spare code it halts. -/
theorem driveSetsOnePin : Obligations.DriveSetsOnePin := by
  unfold Obligations.DriveSetsOnePin
  refine ⟨decode_encode_drive, fun s p v h => ⟨fun hl => ?_, fun hp => ?_⟩⟩
  · obtain ⟨hself, hother, htrace, hrest⟩ := play_pin_frame (s := s) (p := p) (m := drivenMode v) rfl
    exact ⟨_, execDrive_eq h hl p v, hself.trans (drivenMode_code v), hother, drivenMode_eq v ▸ htrace, hrest⟩
  · exact exec_haltedWith_of_invalid_pin h hp (.inr rfl)

end Sys2Proof.Machine
end

section
/-! The opcode map read in both directions (30_encoding.md R37 to R42): the words of a row, what they decode to, and the
word of an instruction. -/

namespace Sys2Proof

/-! ## The words of a row -/

/-- The opcode `cmd[15:12]` of an operation (30_encoding.md R37). -/
def Op.code : Op → Nat
  | .tick => 1
  | .update => 2
  | .active => 3
  | .float => 4
  | .drive => 5
  | .light => 6
  | .frame => 7
  | .gap => 8

/-- How many low bits of an operation's word its operand fields take (30_encoding.md R38). -/
def Op.fieldBits : Op → Nat
  | .tick => 0
  | .update => 1
  | .active | .float | .gap => 2
  | .drive => 3
  | .light => 5
  | .frame => 12

/-- The operation of an instruction. -/
def Instr.op : Instr → Op
  | .tick => .tick
  | .update _ => .update
  | .active _ => .active
  | .float _ => .float
  | .drive _ _ => .drive
  | .light _ _ _ => .light
  | .frame _ => .frame
  | .gap _ => .gap

/-- The words of an operation: its opcode, and every reserved bit 0. -/
def Op.Covers (op : Op) (w : Word) : Prop := w.toNat / 4096 = op.code ∧ w.toNat % 4096 < 2 ^ op.fieldBits

theorem Op.op_instr (op : Op) (w : Word) : (op.instr w).op = op := by cases op <;> rfl

theorem Op.exists_iff {P : Op → Prop} :
    (∃ op, P op) ↔ P .tick ∨ P .update ∨ P .active ∨ P .float ∨ P .drive ∨ P .light ∨ P .frame ∨ P .gap := by
  constructor
  · rintro ⟨op, h⟩
    cases op <;> simp [h]
  · rintro (h | h | h | h | h | h | h | h) <;> exact ⟨_, h⟩

/-- The words of no operation are those that 30_encoding.md R42 calls illegal. -/
theorem exists_covers_iff (w : Word) :
    (∃ op : Op, op.Covers w) ↔
      ¬ (w.toNat / 4096 = 0 ∨ 9 ≤ w.toNat / 4096 ∨ (w.toNat / 4096 = 1 ∧ 1 ≤ w.toNat % 4096) ∨
        (w.toNat / 4096 = 2 ∧ 2 ≤ w.toNat % 4096) ∨ (w.toNat / 4096 = 3 ∧ 4 ≤ w.toNat % 4096) ∨
        (w.toNat / 4096 = 4 ∧ 4 ≤ w.toNat % 4096) ∨ (w.toNat / 4096 = 5 ∧ 8 ≤ w.toNat % 4096) ∨
        (w.toNat / 4096 = 6 ∧ 32 ≤ w.toNat % 4096) ∨ (w.toNat / 4096 = 8 ∧ 4 ≤ w.toNat % 4096)) := by
  constructor
  · rintro ⟨op, hcode, hfields⟩
    cases op <;> simp only [Op.code, Op.fieldBits] at hcode hfields <;> omega
  · intro h
    simp only [not_or, not_and, Nat.not_le] at h
    obtain ⟨h0, h9, h1, h2, h3, h4, h5, h6, h8⟩ := h
    have hframe : w.toNat % 4096 < 4096 := Nat.mod_lt _ (by decide)
    have hop : w.toNat / 4096 = 1 ∨ w.toNat / 4096 = 2 ∨ w.toNat / 4096 = 3 ∨ w.toNat / 4096 = 4 ∨
        w.toNat / 4096 = 5 ∨ w.toNat / 4096 = 6 ∨ w.toNat / 4096 = 7 ∨ w.toNat / 4096 = 8 := by
      clear h1 h2 h3 h4 h5 h6 h8 hframe
      omega
    rcases hop with e | e | e | e | e | e | e | e
    · exact ⟨.tick, e, h1 e⟩
    · exact ⟨.update, e, h2 e⟩
    · exact ⟨.active, e, h3 e⟩
    · exact ⟨.float, e, h4 e⟩
    · exact ⟨.drive, e, h5 e⟩
    · exact ⟨.light, e, h6 e⟩
    · exact ⟨.frame, e, hframe⟩
    · exact ⟨.gap, e, h8 e⟩

/-- Every row's mask frees the bits of its fields, and its pattern is its opcode above zeros (30_encoding.md R39). -/
theorem opcodeRows_layout :
    ∀ r ∈ opcodeRows, r.mask = BitVec.allOnes 16 <<< r.op.fieldBits ∧ r.pattern.toNat = r.op.code * 4096 := by
  decide

theorem Op.covers_iff_quotient (op : Op) (w : Word) :
    w.toNat / 2 ^ op.fieldBits * 2 ^ op.fieldBits = op.code * 4096 ↔ op.Covers w := by
  unfold Op.Covers
  cases op <;> simp only [Op.code, Op.fieldBits] <;> omega

/-- A row selects exactly the words of its operation. -/
theorem mask_eq_iff_covers {r : Row} (hr : r ∈ opcodeRows) (w : Word) : w &&& r.mask = r.pattern ↔ r.op.Covers w := by
  obtain ⟨hmask, hpattern⟩ := opcodeRows_layout r hr
  rw [and_mask_eq_iff w _ _ _ hmask, hpattern, Op.covers_iff_quotient]

/-! ## Decoding -/

theorem decode_of_covers {op : Op} {w : Word} (h : op.Covers w) : decode w = .ok (op.instr w) := by
  obtain ⟨hcode, hfields⟩ := h
  rw [decode_eq]
  cases op <;> simp only [Op.code, Op.fieldBits] at hcode hfields
  case tick => rw [if_pos (by omega)]; rfl
  case update => rw [if_neg (by omega), if_pos (by omega)]
  case active =>
    iterate 2 rw [if_neg (by omega)]
    rw [if_pos (by omega)]
  case float =>
    iterate 3 rw [if_neg (by omega)]
    rw [if_pos (by omega)]
  case drive =>
    iterate 4 rw [if_neg (by omega)]
    rw [if_pos (by omega)]
  case light =>
    iterate 5 rw [if_neg (by omega)]
    rw [if_pos (by omega)]
  case frame =>
    iterate 6 rw [if_neg (by omega)]
    rw [if_pos (by omega)]
  case gap =>
    iterate 7 rw [if_neg (by omega)]
    rw [if_pos (by omega)]

theorem decode_of_not_covers {w : Word} (h : ¬ ∃ op : Op, op.Covers w) : decode w = .error (rejection w) := by
  simp only [Op.exists_iff, Op.Covers, Op.code, Op.fieldBits] at h
  rw [decode_eq]
  iterate 8 rw [if_neg (by omega)]

/-- A word that decodes is a word of the operation it decodes to, and spells it. -/
theorem covers_and_instr_of_decode {w : Word} {i : Instr} (h : decode w = .ok i) :
    i.op.Covers w ∧ i.op.instr w = i := by
  by_cases hc : ∃ op : Op, op.Covers w
  · obtain ⟨op, hop⟩ := hc
    rw [decode_of_covers hop] at h
    cases h
    rw [Op.op_instr]
    exact ⟨hop, rfl⟩
  · rw [decode_of_not_covers hc] at h
    cases h

/-! ## Fields -/

theorem getLsbD_toNat (w : Word) (n : Nat) : (w.getLsbD n).toNat = w.toNat / 2 ^ n % 2 := by
  rw [← BitVec.testBit_toNat, Nat.toNat_testBit]

theorem Level.num_ofBit (b : Bool) : (Level.ofBit b).num = b.toNat := by cases b <;> rfl

theorem KeySel.num_ite (b : Bool) : (if b then KeySel.b else KeySel.a).num = b.toNat := by cases b <;> rfl

theorem toNat_field2_zero (w : Word) : (field2 w 0).toNat = w.toNat % 4 := by simp [toNat_field2]

theorem pinField_zero_val (w : Word) : (pinField w 0).val = w.toNat % 4 := toNat_field2_zero w

theorem toNat_patternField (w : Word) : (w.extractLsb' 0 12).toNat = w.toNat % 4096 := by
  simp [BitVec.extractLsb'_toNat]

/-- A word of an operation is the encoding of what it spells: the fields lose no bit of it. -/
theorem encode_instr {op : Op} {w : Word} (h : op.Covers w) : encode (op.instr w) = w := by
  obtain ⟨hcode, hfields⟩ := h
  refine BitVec.eq_of_toNat_eq ?_
  cases op <;> simp only [Op.code, Op.fieldBits] at hcode hfields <;>
    simp only [Op.instr, encode, BitVec.toNat_ofNat, KeySel.num_ite, Level.num_ofBit, code_ofCode, getLsbD_toNat,
      toNat_field2, pinField_val, toNat_patternField] <;>
    omega

/-! ## Decoding an encoding -/

theorem decode_encode_frame (pat : BitVec 12) : decode (encode (.frame pat)) = .ok (.frame pat) := by
  have hpat : pat.toNat < 4096 := pat.isLt
  have hw : (encode (.frame pat)).toNat = 0x7000 + pat.toNat := by
    simp only [encode, BitVec.toNat_ofNat]
    omega
  have hc : Op.frame.Covers (encode (.frame pat)) := by
    simp only [Op.Covers, Op.code, Op.fieldBits, hw]
    omega
  have hf : (encode (.frame pat)).extractLsb' 0 12 = pat := by
    refine BitVec.eq_of_toNat_eq ?_
    rw [toNat_patternField, hw]
    omega
  rw [decode_of_covers hc, Op.instr, hf]

theorem decode_encode_light (hi lo : Pin) (c : Bool) :
    decode (encode (.light hi lo c)) = .ok (.light hi lo c) := by
  cases c <;> revert hi lo <;> decide

theorem decode_encode_gap (b : BitVec 2) : decode (encode (.gap b)) = .ok (.gap b) := by
  revert b; decide

theorem decode_encode (i : Instr) : decode (encode i) = .ok i := by
  cases i with
  | tick => decide
  | update k => cases k <;> decide
  | active st => exact Machine.decode_encode_active st
  | float p => exact Machine.decode_encode_float p
  | drive p v => exact Machine.decode_encode_drive p v
  | light hi lo c => exact decode_encode_light hi lo c
  | frame pat => exact decode_encode_frame pat
  | gap b => exact decode_encode_gap b

/-! ## The statements -/

/-- Settles O1, one lemma per operation: FRAME's by the arithmetic of its row, the others by their few operands. -/
theorem decodingAnEncodedInstructionReturnsIt : Obligations.DecodingAnEncodedInstructionReturnsIt := by
  unfold Obligations.DecodingAnEncodedInstructionReturnsIt
  exact decode_encode

/-- Settles O2: a word that decodes is covered by the row of what it decodes to. -/
theorem decodedWordIsTheInstructionsEncoding : Obligations.DecodedWordIsTheInstructionsEncoding := by
  unfold Obligations.DecodedWordIsTheInstructionsEncoding
  intro w i h
  obtain ⟨hc, hi⟩ := covers_and_instr_of_decode h
  exact hi ▸ encode_instr hc

/-- Settles O3, row by row: the row's mask selects the words it covers, and those decode to its operation. -/
theorem decoderFollowsTheOpcodeMap : Obligations.DecoderFollowsTheOpcodeMap := by
  unfold Obligations.DecoderFollowsTheOpcodeMap
  intro w
  have back {i : Instr} (h : decode w = .ok i) : i.op.Covers w := (covers_and_instr_of_decode h).1
  refine ⟨(mask_eq_iff_covers (r := ⟨.tick, _, _⟩) (by decide) w).trans ?_,
    (mask_eq_iff_covers (r := ⟨.update, _, _⟩) (by decide) w).trans ?_,
    (mask_eq_iff_covers (r := ⟨.active, _, _⟩) (by decide) w).trans ?_,
    (mask_eq_iff_covers (r := ⟨.float, _, _⟩) (by decide) w).trans ?_,
    (mask_eq_iff_covers (r := ⟨.drive, _, _⟩) (by decide) w).trans ?_,
    (mask_eq_iff_covers (r := ⟨.light, _, _⟩) (by decide) w).trans ?_,
    (mask_eq_iff_covers (r := ⟨.frame, _, _⟩) (by decide) w).trans ?_,
    (mask_eq_iff_covers (r := ⟨.gap, _, _⟩) (by decide) w).trans ?_⟩
  · exact ⟨decode_of_covers, back⟩
  · exact ⟨decode_of_covers, back⟩
  · refine ⟨fun h => ⟨_, decode_of_covers h, ?_⟩, fun ⟨_, h, _⟩ => back h⟩
    rw [code_ofCode, toNat_field2_zero]
  · exact ⟨fun h => ⟨_, decode_of_covers h, pinField_zero_val w⟩, fun ⟨_, h, _⟩ => back h⟩
  · have hlevel := (Level.num_ofBit _).trans (getLsbD_toNat w 2)
    exact ⟨fun h => ⟨_, _, decode_of_covers h, pinField_zero_val w, hlevel⟩, fun ⟨_, _, h, _⟩ => back h⟩
  · exact ⟨fun h => ⟨_, _, _, decode_of_covers h, pinField_zero_val w, pinField_val w 2, getLsbD_toNat w 4⟩,
      fun ⟨_, _, _, h, _⟩ => back h⟩
  · exact ⟨fun h => ⟨_, decode_of_covers h, toNat_patternField w⟩, fun ⟨_, h, _⟩ => back h⟩
  · exact ⟨fun h => ⟨_, decode_of_covers h, toNat_field2_zero w⟩, fun ⟨_, h, _⟩ => back h⟩

/-- Settles O4: the eight words are concrete, and the decoder computes. -/
theorem sampleWordsDecodeAsWritten : Obligations.SampleWordsDecodeAsWritten := by
  unfold Obligations.SampleWordsDecodeAsWritten
  decide

/-- An illegal word halts a running block with cause 1. -/
theorem Machine.runWord_haltedWith_of_error {s : State} (hs : s.halted = false) {w : Word} {e : DecodeError}
    (he : decode w = .error e) : ∃ t, runWord w s = .next t ∧ HaltedWith s t Cause.illegalOp.code := by
  refine ⟨_, runWord_of_error he s, ?_⟩
  rw [illegalCommand, unlessHalted_of_running hs]
  exact haltedWith_of_cleared .illegalOp s

/-- Settles O5: the words that no row covers are the illegal ones; the block halts on those and runs the others. -/
theorem reservedOpcodesAndBitsHaltAsIllegal : Obligations.ReservedOpcodesAndBitsHaltAsIllegal := by
  unfold Obligations.ReservedOpcodesAndBitsHaltAsIllegal
  intro w s hs
  refine ⟨fun hill => ?_, fun hleg => ?_⟩
  · have he := decode_of_not_covers (w := w) fun hc => (exists_covers_iff w).1 hc hill
    exact Machine.runWord_haltedWith_of_error hs he
  · obtain ⟨op, hop⟩ := (exists_covers_iff w).2 hleg
    obtain ⟨t, ht, -⟩ := Machine.exec_cases (op.instr w) s
    have hd := decode_of_covers hop
    exact ⟨_, t, hd, ht, by rw [Machine.runWord_of_ok hd, ht]⟩

theorem existsUnique_slot_of_pair (hi lo : Pin) (h : hi ≠ lo) :
    ∃ n : Fin 12, Machine.slotPair n = (hi, lo) ∧ ∀ m : Fin 12, Machine.slotPair m = (hi, lo) → m = n := by
  revert hi lo; decide

/-- Settles O6: twelve slots and sixteen pairs of pins, each looked up in the table. -/
theorem slotTableIsLexicographicInPairs : Obligations.SlotTableIsLexicographicInPairs := by
  unfold Obligations.SlotTableIsLexicographicInPairs
  refine ⟨fun n => ⟨Machine.slotPair_ne n, ?_⟩, existsUnique_slot_of_pair, fun p n => ?_, by decide, by decide⟩
  · revert n; decide
  · intro h
    exact Machine.slotPair_ne n (by rw [h])

end Sys2Proof
end

section
/-! One step by the head of the owner's stream, the reset values, and what every step keeps (44_loop_protocol.md R102;
70_reset_and_hazards.md R91, R92; 10_state.md R21 to R29). -/

namespace Sys2Proof.Machine

/-- An answer is one next state at most. -/
theorem next_unique {a : Answer} {t u : State} (ht : a = .next t) (hu : a = .next u) : t = u :=
  Host.Outcome.next.inj (ht.symm.trans hu)

/-! ## The step by its kind -/

/-- Settles O7: the head of the stream is a word that decodes. -/
theorem stepRunsTheDecodedCommand : Obligations.StepRunsTheDecodedCommand := by
  unfold Obligations.StepRunsTheDecodedCommand
  intro s st rest w i hp hr hc hd
  rw [step_of_pending hp, respond_of_word hr hc, runWord_of_ok hd]

/-- Settles O8: the head of the stream is a word that does not decode. -/
theorem stepHaltsOnAnIllegalWord : Obligations.StepHaltsOnAnIllegalWord := by
  unfold Obligations.StepHaltsOnAnIllegalWord
  intro s st rest w e hp hr hc he hs
  rw [step_of_pending hp, respond_of_word hr hc]
  exact runWord_haltedWith_of_error (s := presented s st rest) hs he

/-- A step on an asserted `rst` answers the reset state under the new port values. -/
theorem step_of_reset {s : State} {st : Stimulus} {rest : List Stimulus} (hp : s.pending = st :: rest)
    (hr : st.rst = true) : step s = .next (presented s st rest).applyReset := by
  rw [step_of_pending hp, respond_of_reset hr]

/-- Settles O9: the state after a reset is the reset state of the parameters, field by field. -/
theorem resetRequestRestoresEveryRegister : Obligations.ResetRequestRestoresEveryRegister := by
  unfold Obligations.ResetRequestRestoresEveryRegister
  intro s st rest hp hr
  exact ⟨_, step_of_reset hp hr, rfl, rfl, rfl, rfl, State.resetWith_floating s.params,
    State.resetWith_halted s.params, State.resetWith_cause s.params, rfl, rfl, rfl, rfl, rfl⟩

/-- Settles O10: with nothing pending, or on a pause, the block does not move. -/
theorem pauseLeavesTheBlockUnchanged : Obligations.PauseLeavesTheBlockUnchanged := by
  unfold Obligations.PauseLeavesTheBlockUnchanged
  refine ⟨fun s hp => step_of_nothing_pending hp, fun s st rest hp hr hc => ?_⟩
  refine ⟨presented s st rest, ?_, ⟨rfl, rfl, rfl, rfl, rfl⟩, rfl, rfl, rfl, rfl, rfl⟩
  rw [step_of_pending hp, respond_of_pause hr hc]

/-- Settles O11, by the kind of the stream's head: nothing, a reset, a pause or a word. -/
theorem everyStepAnswersANextState : Obligations.EveryStepAnswersANextState := by
  unfold Obligations.EveryStepAnswersANextState
  intro s
  cases hp : s.pending with
  | nil => exact ⟨s, step_of_nothing_pending hp⟩
  | cons st rest =>
    cases hr : st.rst with
    | true => exact ⟨_, step_of_reset hp hr⟩
    | false =>
      rw [step_of_pending hp]
      cases hc : st.cmd with
      | none => exact ⟨_, respond_of_pause hr hc _⟩
      | some w =>
        rw [respond_of_word hr hc]
        obtain ⟨t, ht, -⟩ := runWord_cases w (presented s st rest)
        exact ⟨t, ht⟩

/-! ## Reset values -/

/-- Settles O12: the reset state holds the table's value in every field. -/
theorem resetValuesAreTheTables : Obligations.ResetValuesAreTheTables := by
  unfold Obligations.ResetValuesAreTheTables
  exact fun p => ⟨rfl, rfl, rfl, rfl, rfl, rfl, State.resetWith_floating p, State.resetWith_halted p,
    State.resetWith_cause p, rfl⟩

/-! ## The register invariant -/

/-- The invariant reads the parameters, the TimeBase, the pin registers and `status` alone. -/
theorem State.Inv.congr {s t : State} (h : s.Inv) (hparams : t.params = s.params) (htb : t.tb = s.tb)
    (hpins : t.pins = s.pins) (hstatus : t.status = s.status) : t.Inv where
  lastRaw_lt := by rw [htb, hparams]; exact h.lastRaw_lt
  pins_legal := by rw [hpins]; exact h.pins_legal
  status_legal := by
    simp only [State.StatusLegal, State.halted_congr hstatus, State.cause_congr hstatus]
    exact h.status_legal

theorem resetWith_inv (p : Params) : (State.resetWith p).Inv where
  lastRaw_lt := Nat.two_pow_pos p.cw
  pins_legal := (State.resetWith_floating p).legal
  status_legal := by simp [State.StatusLegal]

/-- Settles O13: the reset state of all parameters, the reference ones included. -/
theorem resetMeetsTheRegisterInvariant : Obligations.ResetMeetsTheRegisterInvariant := by
  unfold Obligations.ResetMeetsTheRegisterInvariant
  exact ⟨resetWith_inv, resetWith_inv Params.reference⟩

/-- Every cause of a halt is one of the table: neither 0 nor the reserved 7. -/
theorem Cause.code_ne (c : Cause) : c.code ≠ 0#3 ∧ c.code ≠ 7#3 := by cases c <;> decide

theorem raiseHalt_statusLegal (c : Cause) (s : State) : (raiseHalt c s).StatusLegal := by
  rw [State.StatusLegal, raiseHalt_halted, raiseHalt_cause]
  exact ⟨fun h => Bool.noConfusion h, fun _ => c.code_ne⟩

/-- A stretch of trace writes modes alone, never the spare code. -/
theorem Pins.Legal.afterEvents {ps : Pins} (h : ps.Legal) (seg : List Event) : (ps.afterEvents seg).Legal := by
  induction seg generalizing ps with
  | nil => exact h
  | cons e seg ih =>
    cases e with
    | pin p m => exact ih (h.set p m)
    | hold d => exact ih h

/-- Every operation of a running block keeps the invariant. -/
theorem Effect.inv {s t : State} (he : Effect s t) (h : s.Inv) : t.Inv := by
  cases he with
  | halt c => exact ⟨h.lastRaw_lt, h.pins_legal, raiseHalt_statusLegal c s⟩
  | tick tb d hr _ _ =>
    have hlt : tb.lastRaw < 2 ^ s.params.cw := hr ▸ s.readRaw_lt
    exact ⟨hlt, h.pins_legal, h.status_legal⟩
  | accept k low _ => exact h.congr (by simp) (by simp) (by simp) (by simp)
  | returns r => exact h.congr rfl rfl rfl rfl
  | play seg => exact ⟨h.lastRaw_lt, h.pins_legal.afterEvents seg, h.status_legal⟩

/-- Settles O14, by what a step can do: reset to the reset values, leave the registers, or have one of the effects. -/
theorem everyStepKeepsTheRegisterInvariant : Obligations.EveryStepKeepsTheRegisterInvariant := by
  unfold Obligations.EveryStepKeepsTheRegisterInvariant
  intro s t hinv hstep
  rcases step_cases hstep with ⟨-, rfl⟩ | ⟨st, rest, -, ⟨-, rfl⟩ | ⟨-, rfl | ⟨-, rfl⟩ | ⟨-, he⟩⟩⟩
  · exact hinv
  · exact (resetWith_inv s.params).congr rfl rfl rfl rfl
  · exact hinv.congr rfl rfl rfl rfl
  · exact hinv.congr rfl rfl rfl rfl
  · exact he.inv (hinv.congr (t := (presented s st rest).setResult none) rfl rfl rfl rfl)

/-! ## The build parameters -/

/-- No operation touches the build parameters. -/
theorem Effect.params_eq {s t : State} (h : Effect s t) : t.params = s.params := by
  cases h with
  | accept k low _ => simp
  | halt | tick | returns | play => rfl

theorem step_params_eq {s t : State} (h : step s = .next t) : t.params = s.params := by
  rcases step_cases h with ⟨-, rfl⟩ | ⟨st, rest, -, ⟨-, rfl⟩ | ⟨-, rfl | ⟨-, rfl⟩ | ⟨-, he⟩⟩⟩
  · rfl
  · rfl
  · rfl
  · rfl
  · exact he.params_eq

/-- Settles O15, by induction along the run. -/
theorem buildParametersNeverChange : Obligations.BuildParametersNeverChange := by
  unfold Obligations.BuildParametersNeverChange
  exact run_induction (P := fun s t => t.params = s.params) (fun _ => rfl)
    fun s u t hstep ih => ih.trans (step_params_eq hstep)

end Sys2Proof.Machine
end

section
/-! Halts: what one writes, which one is raised, and how it is left (60_exceptions.md R78 to R82). -/

namespace Sys2Proof.Machine

/-! ## What a halt writes -/

/-- An operation of a running block raises a halt or leaves `status`. -/
theorem Effect.halt_or_status_eq {s t : State} (h : Effect s t) : (∃ c, t = raiseHalt c s) ∨ t.status = s.status := by
  cases h with
  | halt c => exact .inl ⟨c, rfl⟩
  | accept k low _ => exact .inr (by simp)
  | tick | returns | play => exact .inr rfl

/-- Settles O44: the one effect that halts a running block is the halt. -/
theorem haltWritesNothingButStatus : Obligations.HaltWritesNothingButStatus := by
  unfold Obligations.HaltWritesNothingButStatus
  intro i s t hs hexec hhalted
  obtain ⟨u, hu, ⟨hs', -⟩ | ⟨-, he⟩⟩ := exec_cases i s
  · simp [hs] at hs'
  · obtain rfl : u = t := next_unique hu hexec
    rcases he.halt_or_status_eq with ⟨c, rfl⟩ | hstatus
    · rw [raiseHalt_cause]
      exact haltedWith_of_cleared c s
    · rw [State.halted_congr hstatus, State.setResult_halted, hs] at hhalted
      cases hhalted

/-! ## Which halt is raised -/

/-- The state `t` halted with the given code, or, when none is given, kept the `status` of `s`. -/
def HaltsAs (s t : State) (expected : Option (BitVec 3)) : Prop :=
  (∀ c, expected = some c → t.halted = true ∧ t.cause = c) ∧ (expected = none → t.status = s.status)

theorem haltsAs_raiseHalt (c : Cause) (s u : State) : HaltsAs s (raiseHalt c u) (some c.code) :=
  ⟨fun _ h => ⟨raiseHalt_halted c u, (raiseHalt_cause c u).trans (Option.some.inj h)⟩, fun h => nomatch h⟩

theorem haltsAs_none {s t : State} (h : t.status = s.status) : HaltsAs s t none :=
  ⟨fun _ h => (nomatch h), fun _ => h⟩

/-- The check of the pin registers comes before those of the operands. -/
theorem expectedCause_of_not_legal {i : Instr} (hi : checksPins i) {s : State} (hl : ¬ s.pins.Legal) :
    expectedCause i s = some Cause.badPinMode.code := by
  cases i with
  | tick | update | active => simp [checksPins, isDisplay, isPinWrite] at hi
  | float | drive | light | frame | gap => exact if_neg hl

/-- A brightness index has a delay unless it is 3. -/
theorem interFrameDelay_eq_none_iff (b : BitVec 2) : interFrameDelay b = none ↔ b = 3#2 := by
  revert b; decide

/-- GAP with legal pin registers halts on the index 3 and plays its hold otherwise. -/
theorem execGap_cases {s : State} (h : s.halted = false) (hl : s.pins.Legal) (b : BitVec 2) :
    (b = 3#2 ∧ exec (.gap b) s = .next (raiseHalt .badBrightness s)) ∨
      (b ≠ 3#2 ∧ ∃ d, interFrameDelay b = some d ∧ exec (.gap b) s = .next ((s.setResult none).play [.hold (.us d)])) := by
  cases hd : interFrameDelay b with
  | none => exact .inl ⟨(interFrameDelay_eq_none_iff b).1 hd, execGap_of_no_delay h hl hd⟩
  | some d =>
    have hb : b ≠ 3#2 := fun hb => by simp [(interFrameDelay_eq_none_iff b).2 hb] at hd
    exact .inr ⟨hb, d, rfl, execGap_of_delay h hl hd⟩

/-- A pin operation of a running block with legal pin registers halts on its operands alone. -/
theorem exec_haltsAs_of_legal {s : State} (h : s.halted = false) (hl : s.pins.Legal) {i : Instr} (hi : checksPins i) :
    ∃ t, exec i s = .next t ∧ HaltsAs s t (expectedCause i s) := by
  cases i with
  | tick | update | active => simp [checksPins, isDisplay, isPinWrite] at hi
  | float p => exact ⟨_, execFloat_eq h hl p, by rw [expectedCause, if_pos hl]; exact haltsAs_none rfl⟩
  | drive p v => exact ⟨_, execDrive_eq h hl p v, by rw [expectedCause, if_pos hl]; exact haltsAs_none rfl⟩
  | frame pat => exact ⟨_, execFrame_eq h hl pat, by rw [expectedCause, if_pos hl]; exact haltsAs_none rfl⟩
  | light p q c =>
    refine ⟨_, execLight_eq h hl p q c, ?_⟩
    rw [expectedCause, if_pos hl]
    by_cases heq : p = q
    · rw [if_pos heq, if_pos heq]; exact haltsAs_raiseHalt .badPair s s
    · rw [if_neg heq, if_neg heq]; exact haltsAs_none rfl
  | gap b =>
    rw [expectedCause, if_pos hl]
    rcases execGap_cases h hl b with ⟨hb, he⟩ | ⟨hb, d, -, he⟩
    · rw [if_pos hb]; exact ⟨_, he, haltsAs_raiseHalt .badBrightness s s⟩
    · rw [if_neg hb]; exact ⟨_, he, haltsAs_none rfl⟩

/-- An operation of a running block raises the halt of its first failing check, or none. -/
theorem exec_haltsAs {s : State} (h : s.halted = false) (i : Instr) :
    ∃ t, exec i s = .next t ∧ HaltsAs s t (expectedCause i s) := by
  by_cases hi : checksPins i
  · by_cases hl : s.pins.Legal
    · exact exec_haltsAs_of_legal h hl hi
    · rw [expectedCause_of_not_legal hi hl]
      exact ⟨_, exec_of_invalid_pin h (by simpa using hl) hi, haltsAs_raiseHalt .badPinMode s s⟩
  · cases i with
    | tick =>
      obtain ⟨t, ht, ⟨hsum, rfl⟩ | ⟨hsum, -, rfl⟩⟩ := execTick_cases h
      · exact ⟨_, ht, by rw [expectedCause, if_pos hsum]; exact haltsAs_raiseHalt .durationOverflow s s⟩
      · exact ⟨_, ht, by rw [expectedCause, if_neg (Nat.not_le.2 hsum)]; exact haltsAs_none rfl⟩
    | update k =>
      obtain ⟨t, ht, ⟨hlt, rfl⟩ | ⟨hle, -, -, rfl⟩ | ⟨hle, -, rfl⟩⟩ := execUpdate_cases h k
      · exact ⟨_, ht, by rw [expectedCause, if_pos hlt]; exact haltsAs_raiseHalt .nowRegressed s s⟩
      · exact ⟨_, ht, by rw [expectedCause, if_neg (BitVec.not_lt.2 hle)]; exact haltsAs_none (by simp)⟩
      · exact ⟨_, ht, by rw [expectedCause, if_neg (BitVec.not_lt.2 hle)]; exact haltsAs_none rfl⟩
    | active st => exact ⟨_, execActive_eq h st, haltsAs_none rfl⟩
    | float | drive | light | frame | gap => simp [checksPins, isDisplay, isPinWrite] at hi

theorem runWord_haltsAs {s : State} (h : s.halted = false) (w : Word) :
    ∃ t, runWord w s = .next t ∧ HaltsAs s t (expectedWordCause w s) := by
  unfold expectedWordCause
  cases hd : decode w with
  | ok i => simpa only [runWord_of_ok hd] using exec_haltsAs h i
  | error e =>
    refine ⟨_, runWord_of_error hd s, ?_⟩
    rw [illegalCommand, unlessHalted_of_running h]
    exact haltsAs_raiseHalt .illegalOp s _

/-- A halted block answers a word with nothing but a cleared result. -/
theorem runWord_of_halted {s : State} (h : s.halted = true) (w : Word) : runWord w s = .next (s.setResult none) := by
  obtain ⟨t, ht, ⟨-, rfl⟩ | ⟨h', -⟩⟩ := runWord_cases w s
  · exact ht
  · simp [h] at h'

/-- Settles O45: a halted block ignores the word, a running one raises the first failing check. -/
theorem haltCauseIsTheFirstFailingCheck : Obligations.HaltCauseIsTheFirstFailingCheck := by
  unfold Obligations.HaltCauseIsTheFirstFailingCheck
  intro w s
  cases h : s.halted with
  | true => exact ⟨_, runWord_of_halted h w, fun _ => rfl, fun h' => Bool.noConfusion h'⟩
  | false =>
    obtain ⟨t, ht, hcause⟩ := runWord_haltsAs h w
    exact ⟨t, ht, fun h' => Bool.noConfusion h', fun _ => hcause⟩

/-- Settles O46: the answer differs from the halted state in its result alone. -/
theorem haltedBlockIgnoresEveryCommand : Obligations.HaltedBlockIgnoresEveryCommand := by
  unfold Obligations.HaltedBlockIgnoresEveryCommand
  intro w s h
  refine ⟨_, runWord_of_halted h w, setResult_sameRegisters s none, rfl, rfl, setResult_sameOutside s none, rfl, rfl, ?_⟩
  rw [State.EndedNormally, State.setResult_halted, h]
  exact Bool.noConfusion

/-! ## How a halt is left -/

theorem SameRegisters.refl (s : State) : SameRegisters s s := ⟨rfl, rfl, rfl, rfl, rfl⟩

theorem SameRegisters.trans {s t u : State} (h : SameRegisters s t) (h' : SameRegisters t u) : SameRegisters s u :=
  ⟨h'.tb.trans h.tb, h'.keyA.trans h.keyA, h'.keyB.trans h.keyB, h'.pins.trans h.pins, h'.status.trans h.status⟩

/-- One step of a halted block: it keeps the registers and the trace, or the head of the stream was a reset. -/
theorem step_of_halted {s t : State} (hs : s.halted = true) (h : step s = .next t) :
    (SameRegisters s t ∧ t.trace = s.trace) ∨ ∃ st rest, s.pending = st :: rest ∧ st.rst = true := by
  rcases step_cases h with ⟨-, rfl⟩ | ⟨st, rest, hp, ⟨hr, -⟩ | ⟨-, rfl | ⟨-, rfl⟩ | ⟨hs', -⟩⟩⟩
  · exact .inl ⟨.refl _, rfl⟩
  · exact .inr ⟨st, rest, hp, hr⟩
  · exact .inl ⟨⟨rfl, rfl, rfl, rfl, rfl⟩, rfl⟩
  · exact .inl ⟨⟨rfl, rfl, rfl, rfl, rfl⟩, rfl⟩
  · simp [hs] at hs'

theorem SameRegisters.halted_eq {s t : State} (h : SameRegisters s t) : t.halted = s.halted := State.halted_congr h.status

/-- A run without reset leaves a halted block as it is. -/
theorem run_of_halted {k : Nat} {s t : State} (hs : s.halted = true) (hfree : s.ResetFree)
    (h : Host.Core.run Sys2Proof.core k s = .next t) : SameRegisters s t ∧ t.trace = s.trace := by
  refine run_induction (P := fun s t => s.halted = true → s.ResetFree → SameRegisters s t ∧ t.trace = s.trace)
    (fun s _ _ => ⟨.refl s, rfl⟩) (fun s u t hstep ih hs hfree => ?_) k s t h hs hfree
  rcases step_of_halted hs hstep with ⟨hsame, htrace⟩ | ⟨st, rest, hp, hr⟩
  · obtain ⟨-, hfree'⟩ := step_total_le_of_resetFree hfree hstep
    obtain ⟨hsame', htrace'⟩ := ih (hsame.halted_eq.trans hs) hfree'
    exact ⟨hsame.trans hsame', htrace'.trans htrace⟩
  · have hfirst := hfree st (hp ▸ List.mem_cons_self)
    simp [hr] at hfirst

/-- Settles O47: along a run without reset by induction, and one step for the two other claims. -/
theorem onlyResetLeavesTheHalt : Obligations.OnlyResetLeavesTheHalt := by
  unfold Obligations.OnlyResetLeavesTheHalt
  refine ⟨fun k s t hs hfree hrun => ?_, fun s t hs hstep ht => ?_, fun s st rest hp hr => ?_⟩
  · obtain ⟨hsame, htrace⟩ := run_of_halted hs hfree hrun
    exact ⟨hsame.halted_eq.trans hs, hsame, htrace⟩
  · rcases step_of_halted hs hstep with ⟨hsame, -⟩ | hreset
    · simp [hsame.halted_eq, hs] at ht
    · exact hreset
  · exact ⟨_, step_of_reset hp hr, State.resetWith_halted s.params, State.resetWith_cause s.params⟩

end Sys2Proof.Machine
end

section
/-! The electrical invariant, which LED conducts, and what every operation appends to the trace (20_memory.md R34, R36;
43_charlieplex.md R60, R62; 44_loop_protocol.md R102). -/

namespace Sys2Proof.Machine

/-! ## Pin registers as counted and as shown -/

/-- Settles O32, pin by pin: the two outputs concatenate one bit of each register. -/
theorem ledOutputsAreThePinBits : Obligations.LedOutputsAreThePinBits := by
  unfold Obligations.LedOutputsAreThePinBits
  intro s p
  simp only [State.ledOe, State.ledOut, BitVec.getLsbD_append, BitVec.getLsbD_extractLsb']
  fin_cases p <;> simp [Pins.get]

theorem Pins.countCode_eq_card (ps : Pins) (c : BitVec 2) :
    ps.countCode c = (Finset.univ.filter fun p : Pin => ps.get p = c).card := by
  rw [Finset.card_filter, Fin.sum_univ_four]
  rfl

theorem Pins.countCode_le_one_iff {ps : Pins} {c : BitVec 2} :
    ps.countCode c ≤ 1 ↔ ∀ p q : Pin, ps.get p = c → ps.get q = c → p = q := by
  simp only [Pins.countCode_eq_card, Finset.card_le_one, Finset.mem_filter, Finset.mem_univ, true_and]
  exact ⟨fun h p q hp hq => h p hp q hq, fun h p hp q hq => h p q hp hq⟩

theorem Pins.energised_iff {ps : Pins} {i j : Pin} :
    ps.energised i j = true ↔ ps.get i = PinMode.h.code ∧ ps.get j = PinMode.l.code := by
  simp [Pins.energised]

theorem PinMode.code_h_ne_z : PinMode.h.code ≠ PinMode.z.code := by decide
theorem PinMode.code_l_ne_z : PinMode.l.code ≠ PinMode.z.code := by decide
theorem PinMode.code_h_ne_l : PinMode.h.code ≠ PinMode.l.code := by decide

/-! ## States in which only one pair of pins is driven -/

/-- Only the pins hi and lo may be driven, hi to H and lo to L. -/
structure Pins.OnlyPair (ps : Pins) (hi lo : Pin) : Prop where
  hi_mode : ps.get hi = PinMode.h.code ∨ ps.get hi = PinMode.z.code
  lo_mode : ps.get lo = PinMode.l.code ∨ ps.get lo = PinMode.z.code
  others : ∀ q, q ≠ hi → q ≠ lo → ps.get q = PinMode.z.code

theorem Pins.AllFloating.onlyPair {ps : Pins} (h : ps.AllFloating) (hi lo : Pin) : ps.OnlyPair hi lo :=
  ⟨.inr (h hi), .inr (h lo), fun q _ _ => h q⟩

theorem Pins.OnlyPair.electrical {ps : Pins} {hi lo : Pin} (h : ps.OnlyPair hi lo) : ps.Electrical := by
  obtain ⟨hhi, hlo, hothers⟩ := h
  have high (p : Pin) (hp : ps.get p = PinMode.h.code) : p = hi := by
    by_contra hne
    by_cases hl : p = lo
    · subst hl
      rcases hlo with e | e <;> rw [hp] at e
      · exact PinMode.code_h_ne_l e
      · exact PinMode.code_h_ne_z e
    · exact PinMode.code_h_ne_z (hp.symm.trans (hothers p hne hl))
  have low (p : Pin) (hp : ps.get p = PinMode.l.code) : p = lo := by
    by_contra hne
    by_cases hh : p = hi
    · subst hh
      rcases hhi with e | e <;> rw [hp] at e
      · exact PinMode.code_h_ne_l e.symm
      · exact PinMode.code_l_ne_z e
    · exact PinMode.code_l_ne_z (hp.symm.trans (hothers p hh hne))
  refine ⟨Pins.countCode_le_one_iff.2 fun p q hp hq => (high p hp).trans (high q hq).symm,
    Pins.countCode_le_one_iff.2 fun p q hp hq => (low p hp).trans (low q hq).symm, fun p => ?_⟩
  by_cases hh : p = hi
  · subst hh
    exact hhi.elim .inl (.inr ∘ .inr)
  · by_cases hl : p = lo
    · subst hl
      exact hlo.elim (.inr ∘ .inl) (.inr ∘ .inr)
    · exact .inr (.inr (hothers p hh hl))

theorem Pins.AllFloating.electrical {ps : Pins} (h : ps.AllFloating) : ps.Electrical := (h.onlyPair 0 1).electrical

/-- The events that drive or release a pair, hi to H and lo to L, and holds. -/
def PairEvent (hi lo : Pin) : Event → Prop
  | .pin p m => (p = hi ∧ (m = .h ∨ m = .z)) ∨ (p = lo ∧ (m = .l ∨ m = .z))
  | .hold _ => True

theorem Pins.OnlyPair.afterEvent {ps : Pins} {hi lo : Pin} (hne : hi ≠ lo) (h : ps.OnlyPair hi lo) {e : Event}
    (he : PairEvent hi lo e) : (ps.afterEvent e).OnlyPair hi lo := by
  obtain ⟨hhi, hlo, hothers⟩ := h
  cases e with
  | hold d => exact ⟨hhi, hlo, hothers⟩
  | pin p m =>
    rcases he with ⟨rfl, hm⟩ | ⟨rfl, hm⟩
    · refine ⟨?_, ?_, fun q hq hq' => ?_⟩ <;> simp only [Pins.afterEvent]
      · rw [Pins.get_set_self]
        exact hm.imp (congrArg PinMode.code) (congrArg PinMode.code)
      · rwa [Pins.get_set_of_ne _ _ hne.symm]
      · rw [Pins.get_set_of_ne _ _ hq]
        exact hothers q hq hq'
    · refine ⟨?_, ?_, fun q hq hq' => ?_⟩ <;> simp only [Pins.afterEvent]
      · rwa [Pins.get_set_of_ne _ _ hne]
      · rw [Pins.get_set_self]
        exact hm.imp (congrArg PinMode.code) (congrArg PinMode.code)
      · rw [Pins.get_set_of_ne _ _ hq']
        exact hothers q hq hq'

theorem Pins.OnlyPair.of_mem_instants {ps qs : Pins} {hi lo : Pin} (hne : hi ≠ lo) (h : ps.OnlyPair hi lo)
    {seg : List Event} (hseg : ∀ e ∈ seg, PairEvent hi lo e) (hqs : qs ∈ instants ps seg) : qs.OnlyPair hi lo := by
  induction seg generalizing ps with
  | nil =>
    obtain rfl := List.mem_singleton.1 hqs
    exact h
  | cons e seg ih =>
    obtain ⟨he, hrest⟩ := List.forall_mem_cons.1 hseg
    rcases List.mem_cons.1 hqs with rfl | hqs
    · exact h
    · exact ih (h.afterEvent hne he) hrest hqs

theorem pairEvent_of_mem_slotTrace {hi lo : Pin} {c : Bool} : ∀ e ∈ slotTrace hi lo c, PairEvent hi lo e := by
  cases c <;> simp [slotTrace, PairEvent]

/-! ## The driven pair -/

/-- The pin registers with hi driven H and lo driven L: those of the hold of a LIGHT whose condition is true. -/
def Pins.drivePair (ps : Pins) (hi lo : Pin) : Pins := (ps.set hi PinMode.h.code).set lo PinMode.l.code

theorem holds_slotTrace (ps : Pins) (hi lo : Pin) (c : Bool) :
    holds ps (slotTrace hi lo c) = [(.slot, if c then ps.drivePair hi lo else ps)] := by
  cases c <;> rfl

theorem Pins.get_drivePair_hi (ps : Pins) {hi lo : Pin} (hne : hi ≠ lo) :
    (ps.drivePair hi lo).get hi = PinMode.h.code := by
  rw [Pins.drivePair, Pins.get_set_of_ne _ _ hne, Pins.get_set_self]

theorem Pins.get_drivePair_lo (ps : Pins) (hi lo : Pin) : (ps.drivePair hi lo).get lo = PinMode.l.code :=
  Pins.get_set_self ..

theorem Pins.get_drivePair_of_ne (ps : Pins) {hi lo q : Pin} (hh : q ≠ hi) (hl : q ≠ lo) :
    (ps.drivePair hi lo).get q = ps.get q := by
  rw [Pins.drivePair, Pins.get_set_of_ne _ _ hl, Pins.get_set_of_ne _ _ hh]

/-- With all other pins floating, a driven pair energises its LED and no other (43_charlieplex.md R63). -/
theorem Pins.AllFloating.energised_drivePair {ps : Pins} (hz : ps.AllFloating) {hi lo : Pin} (hne : hi ≠ lo) (i j : Pin) :
    (ps.drivePair hi lo).energised i j = true ↔ i = hi ∧ j = lo := by
  have hpair : (ps.drivePair hi lo).OnlyPair hi lo :=
    ⟨.inl (ps.get_drivePair_hi hne), .inl (ps.get_drivePair_lo hi lo),
      fun q hh hl => (ps.get_drivePair_of_ne hh hl).trans (hz q)⟩
  obtain ⟨hhigh, hlow, -⟩ := hpair.electrical
  rw [Pins.energised_iff]
  constructor
  · rintro ⟨h, l⟩
    exact ⟨Pins.countCode_le_one_iff.1 hhigh i hi h (ps.get_drivePair_hi hne),
      Pins.countCode_le_one_iff.1 hlow j lo l (ps.get_drivePair_lo hi lo)⟩
  · rintro ⟨rfl, rfl⟩
    exact ⟨ps.get_drivePair_hi hne, ps.get_drivePair_lo _ _⟩

theorem Pins.AllFloating.energised_eq_false {ps : Pins} (hz : ps.AllFloating) (i j : Pin) : ps.energised i j = false := by
  rw [← Bool.not_eq_true, Pins.energised_iff, hz i]
  exact fun h => PinMode.code_h_ne_z h.1.symm

/-! ## Stretches of trace that light at most one LED and end as they began -/

/-- A stretch of trace lights at most one LED and leaves the pin registers as it found them. -/
def LightsAndReturns (ps : Pins) (seg : List Event) : Prop := LightsAtMostOne ps seg ∧ ps.afterEvents seg = ps

theorem LightsAtMostOne.append {ps : Pins} {a b : List Event} (ha : LightsAtMostOne ps a)
    (hb : LightsAtMostOne (ps.afterEvents a) b) : LightsAtMostOne ps (a ++ b) where
  electrical qs hqs := (mem_instants_append.1 hqs).elim (ha.electrical qs) (hb.electrical qs)
  held x hx := by
    rw [holds_append, List.mem_append] at hx
    exact hx.elim (ha.held x) (hb.held x)

theorem LightsAndReturns.append {ps : Pins} {a b : List Event} (ha : LightsAndReturns ps a) (hb : LightsAndReturns ps b) :
    LightsAndReturns ps (a ++ b) := by
  obtain ⟨halights, hareturns⟩ := ha
  obtain ⟨hblights, hbreturns⟩ := hb
  exact ⟨halights.append (hareturns.symm ▸ hblights), by rw [Pins.afterEvents_append, hareturns, hbreturns]⟩

theorem lightsAndReturns_nil {ps : Pins} (hz : ps.AllFloating) : LightsAndReturns ps [] :=
  ⟨⟨fun qs hqs => by rw [List.mem_singleton.1 hqs]; exact hz.electrical, fun x hx => by cases hx⟩, rfl⟩

theorem lightsAndReturns_flatMap {ps : Pins} (hz : ps.AllFloating) {α : Type} (l : List α) (f : α → List Event)
    (h : ∀ a ∈ l, LightsAndReturns ps (f a)) : LightsAndReturns ps (l.flatMap f) := by
  induction l with
  | nil => exact lightsAndReturns_nil hz
  | cons a l ih =>
    obtain ⟨ha, hl⟩ := List.forall_mem_cons.1 h
    rw [List.flatMap_cons]
    exact ha.append (ih hl)

theorem lightsAndReturns_hold {ps : Pins} (hz : ps.AllFloating) (d : Duration) : LightsAndReturns ps [.hold d] := by
  refine ⟨⟨fun qs hqs => ?_, fun x hx => ?_⟩, rfl⟩
  · have hqs' : qs = ps := by simpa [instants, Pins.afterEvent] using hqs
    exact hqs' ▸ hz.electrical
  · obtain rfl := List.mem_singleton.1 hx
    exact .inl hz

theorem lightsAndReturns_float {ps : Pins} (hz : ps.AllFloating) (p : Pin) : LightsAndReturns ps [.pin p .z] := by
  have hset : ps.afterEvent (.pin p .z) = ps := by
    refine Pins.ext_get fun q => ?_
    by_cases hq : q = p
    · subst hq
      exact (Pins.get_set_self ..).trans (hz q).symm
    · exact Pins.get_set_of_ne _ _ hq
  refine ⟨⟨fun qs hqs => ?_, fun x hx => by cases hx⟩, hset⟩
  have hqs' : qs = ps := by simpa [instants, hset] using hqs
  exact hqs' ▸ hz.electrical

theorem lightsAndReturns_slotTrace {ps : Pins} (hz : ps.AllFloating) {hi lo : Pin} (hne : hi ≠ lo) (c : Bool) :
    LightsAndReturns ps (slotTrace hi lo c) := by
  refine ⟨⟨fun qs hqs => ?_, fun x hx => ?_⟩, afterEvents_slotTrace_floating hz hi lo hne c⟩
  · exact ((hz.onlyPair hi lo).of_mem_instants hne pairEvent_of_mem_slotTrace hqs).electrical
  · rw [holds_slotTrace, List.mem_singleton] at hx
    subst hx
    cases c with
    | false => exact .inl hz
    | true =>
      exact .inr ⟨hi, lo, hne, ps.get_drivePair_hi hne, ps.get_drivePair_lo hi lo,
        fun q hh hl => (ps.get_drivePair_of_ne hh hl).trans (hz q)⟩

/-! ## What an operation appends -/

/-- What an operation that completes appends to the trace. -/
def appended : Instr → List Event
  | .tick | .update _ | .active _ => []
  | .float p => [.pin p .z]
  | .drive p v => [.pin p (drivenMode v)]
  | .light hi lo c => if hi = lo then [] else slotTrace hi lo c
  | .frame pat => frameTrace pat
  | .gap b => (interFrameDelay b).toList.map fun d => .hold (.us d)

/-- From one state to another the trace grew by a stretch, and the pin registers moved as it says. -/
structure Appends (s t : State) (seg : List Event) : Prop where
  trace : t.trace = s.trace ++ seg
  pins : t.pins = s.pins.afterEvents seg

theorem appends_nil {s t : State} (htrace : t.trace = s.trace) (hpins : t.pins = s.pins) : Appends s t [] :=
  ⟨by rw [htrace, List.append_nil], hpins⟩

/-- An operation appends nothing or what it is there to append. -/
theorem exec_appends {i : Instr} {s t : State} (h : exec i s = .next t) :
    ∃ seg, (seg = [] ∨ seg = appended i) ∧ Appends s t seg := by
  have nothing {u : State} (hu : exec i s = .next u) (htrace : u.trace = s.trace) (hpins : u.pins = s.pins) :
      ∃ seg, (seg = [] ∨ seg = appended i) ∧ Appends s t seg := by
    obtain rfl : u = t := next_unique hu h
    exact ⟨[], .inl rfl, appends_nil htrace hpins⟩
  have plays {seg : List Event} (hseg : seg = appended i) (hu : exec i s = .next ((s.setResult none).play seg)) :
      ∃ seg, (seg = [] ∨ seg = appended i) ∧ Appends s t seg := by
    obtain rfl : (s.setResult none).play seg = t := next_unique hu h
    exact ⟨seg, .inr hseg, rfl, rfl⟩
  cases hs : s.halted with
  | true => exact nothing (exec_of_halted hs i) rfl rfl
  | false =>
    by_cases hbad : checksPins i ∧ ¬ s.pins.Legal
    · obtain ⟨hi, hl⟩ := hbad
      exact nothing (exec_of_invalid_pin hs (by simpa using hl) hi) rfl rfl
    have hl (hi : checksPins i) : s.pins.Legal := not_not.1 fun hl => hbad ⟨hi, hl⟩
    cases i with
    | tick =>
      obtain ⟨u, hu, ⟨-, rfl⟩ | ⟨-, -, rfl⟩⟩ := execTick_cases hs
      · exact nothing hu rfl rfl
      · exact nothing hu rfl rfl
    | update k =>
      obtain ⟨u, hu, ⟨-, rfl⟩ | ⟨-, -, -, rfl⟩ | ⟨-, -, rfl⟩⟩ := execUpdate_cases hs k
      · exact nothing hu rfl rfl
      · exact nothing hu (by simp) (by simp)
      · exact nothing hu rfl rfl
    | active st => exact nothing (execActive_eq hs st) rfl rfl
    | float p => exact plays rfl (execFloat_eq hs (hl (.inr rfl)) p)
    | drive p v => exact plays rfl (execDrive_eq hs (hl (.inr rfl)) p v)
    | frame pat => exact plays rfl (execFrame_eq hs (hl (.inl rfl)) pat)
    | light hi lo c =>
      have he := execLight_eq hs (hl (.inl rfl)) hi lo c
      by_cases heq : hi = lo
      · rw [if_pos heq] at he
        exact nothing he rfl rfl
      · rw [if_neg heq] at he
        exact plays (if_neg heq).symm he
    | gap b =>
      rcases execGap_cases hs (hl (.inl rfl)) b with ⟨-, he⟩ | ⟨-, d, hd, he⟩
      · exact nothing he rfl rfl
      · exact plays (by simp [appended, hd]) he

theorem length_slotTrace_le (hi lo : Pin) (c : Bool) : (slotTrace hi lo c).length ≤ 5 := by
  cases c <;> simp [slotTrace]

theorem length_frameTrace_le (pat : BitVec 12) : (frameTrace pat).length ≤ 60 := by
  rw [frameTrace, List.length_flatMap]
  refine (List.sum_le_card_nsmul _ 5 fun n hn => ?_).trans (by simp [slots])
  obtain ⟨m, -, rfl⟩ := List.mem_map.1 hn
  exact length_slotTrace_le ..

theorem length_appended_le (i : Instr) : (appended i).length ≤ eventBound i := by
  cases i with
  | tick | update | active | float | drive => simp [appended, eventBound]
  | light hi lo c =>
    rw [appended]
    split
    · exact Nat.zero_le _
    · exact length_slotTrace_le hi lo c
  | frame pat => exact length_frameTrace_le pat
  | gap b => cases h : interFrameDelay b <;> simp [appended, eventBound, h]

/-- Settles O33: an operation appends nothing or its own stretch, which is within its bound. -/
theorem traceTellsThePinRegisters : Obligations.TraceTellsThePinRegisters := by
  unfold Obligations.TraceTellsThePinRegisters
  intro i s t h
  obtain ⟨seg, hseg, happ⟩ := exec_appends h
  refine ⟨seg, happ.trace, happ.pins, ?_⟩
  rcases hseg with rfl | rfl
  · exact Nat.zero_le _
  · exact length_appended_le i

/-! ## Operations other than DRIVE -/

theorem lightsAndReturns_frameTrace {ps : Pins} (hz : ps.AllFloating) (pat : BitVec 12) :
    LightsAndReturns ps (frameTrace pat) :=
  lightsAndReturns_flatMap hz _ _ fun n _ => lightsAndReturns_slotTrace hz (slotPair_ne n) _

/-- From floating pins every operation but DRIVE lights at most one LED and lets the pins float again. -/
theorem lightsAndReturns_appended {ps : Pins} (hz : ps.AllFloating) {i : Instr} (hi : ∀ p v, i ≠ .drive p v) :
    LightsAndReturns ps (appended i) := by
  cases i with
  | tick | update | active => exact lightsAndReturns_nil hz
  | float p => exact lightsAndReturns_float hz p
  | drive p v => exact absurd rfl (hi p v)
  | light hi lo c =>
    rw [appended]
    split
    · exact lightsAndReturns_nil hz
    · exact lightsAndReturns_slotTrace hz ‹_› c
  | frame pat => exact lightsAndReturns_frameTrace hz pat
  | gap b =>
    rw [appended]
    cases interFrameDelay b with
    | none => exact lightsAndReturns_nil hz
    | some d => exact lightsAndReturns_hold hz (.us d)

/-- From floating pins every operation but DRIVE appends such a stretch. -/
theorem exec_lightsAndReturns {i : Instr} (hi : ∀ p v, i ≠ .drive p v) {s t : State} (hz : s.pins.AllFloating)
    (h : exec i s = .next t) : ∃ seg, Appends s t seg ∧ LightsAndReturns s.pins seg := by
  obtain ⟨seg, rfl | rfl, happ⟩ := exec_appends h
  · exact ⟨_, happ, lightsAndReturns_nil hz⟩
  · exact ⟨_, happ, lightsAndReturns_appended hz hi⟩

/-- A stretch that returns the pins leaves them as they were. -/
theorem Appends.pins_eq {s t : State} {seg : List Event} (h : Appends s t seg) (hr : LightsAndReturns s.pins seg) :
    t.pins = s.pins := h.pins.trans hr.2

theorem exec_floating {i : Instr} (hi : ∀ p v, i ≠ .drive p v) {s t : State} (hz : s.pins.AllFloating)
    (h : exec i s = .next t) : t.pins.AllFloating := by
  obtain ⟨seg, happ, hseg⟩ := exec_lightsAndReturns hi hz h
  rw [happ.pins_eq hseg]
  exact hz

/-- Settles O37: LIGHT, FRAME and GAP are operations other than DRIVE. -/
theorem displayOperationsKeepTheInvariant : Obligations.DisplayOperationsKeepTheInvariant := by
  unfold Obligations.DisplayOperationsKeepTheInvariant
  intro i s t hi hz h
  have hnd : ∀ p v, i ≠ .drive p v := by
    rintro p v rfl
    cases hi
  obtain ⟨seg, happ, hseg⟩ := exec_lightsAndReturns hnd hz h
  exact ⟨exec_floating hnd hz h, seg, happ.trace, hseg.1.electrical⟩

/-- Settles O38: by induction along the script the whole trace lights at most one LED, and the pins are as at reset. -/
theorem atMostOneLedIsEverEnergisedFromReset : Obligations.AtMostOneLedIsEverEnergisedFromReset := by
  unfold Obligations.AtMostOneLedIsEverEnergisedFromReset
  intro p l hl t ht
  have hz : (State.resetWith p).pins.AllFloating := State.resetWith_floating p
  have hinv : t.pins = (State.resetWith p).pins ∧ LightsAndReturns (State.resetWith p).pins t.trace := by
    refine trail_induction
      (P := fun t => t.pins = (State.resetWith p).pins ∧ LightsAndReturns (State.resetWith p).pins t.trace)
      l _ ⟨rfl, lightsAndReturns_nil hz⟩ ?_ t ht
    rintro x hx u v ⟨hpins, htrace⟩ hexec
    have hnd : ∀ p v, x.1 ≠ .drive p v := by
      intro p v h
      have hw := hl x hx
      rw [h] at hw
      cases hw
    obtain ⟨seg, happ, hseg⟩ := exec_lightsAndReturns hnd (s := u.setPorts x.2) (hpins ▸ hz) hexec
    refine ⟨(happ.pins_eq hseg).trans hpins, ?_⟩
    rw [happ.trace]
    exact htrace.append (hpins ▸ hseg)
  obtain ⟨hpins, hlights, -⟩ := hinv
  exact ⟨hpins ▸ hz, hlights.electrical, hlights.held⟩

/-! ## Steps without DRIVE -/

/-- Settles O52: at reset the pins float and nothing is pending. -/
theorem resetIsDriveFree : Obligations.ResetIsDriveFree := by
  unfold Obligations.ResetIsDriveFree
  exact fun p => ⟨⟨State.resetWith_floating p, fun st h => by cases h⟩, (State.resetWith_floating p).electrical⟩

theorem step_pending_eq_tail {s t : State} (h : step s = .next t) : t.pending = s.pending.tail := by
  rcases step_cases h with ⟨hp, rfl⟩ | ⟨st, rest, hp, hcases⟩
  · rw [hp, List.tail_nil]
  · rw [hp, List.tail_cons]
    rcases hcases with ⟨-, rfl⟩ | ⟨-, rfl | ⟨-, rfl⟩ | ⟨-, he⟩⟩
    · rfl
    · rfl
    · rfl
    · exact he.pending_eq

/-- A command word other than DRIVE's, from floating pins, appends a stretch that lights at most one LED and returns. -/
theorem runWord_lightsAndReturns {w : Word} (hw : ∀ p v, decode w ≠ .ok (.drive p v)) {s t : State}
    (hz : s.pins.AllFloating) (h : runWord w s = .next t) : ∃ seg, Appends s t seg ∧ LightsAndReturns s.pins seg := by
  cases hd : decode w with
  | ok i =>
    rw [runWord_of_ok hd] at h
    refine exec_lightsAndReturns ?_ hz h
    rintro p v rfl
    exact hw p v hd
  | error e =>
    rw [runWord_of_error hd, illegalCommand] at h
    obtain rfl := Host.Outcome.next.inj h
    refine ⟨[], ?_, lightsAndReturns_nil hz⟩
    rcases unlessHalted_cases s (raiseHalt .illegalOp) with ⟨-, e⟩ | ⟨-, e⟩ <;> rw [e]
    · exact appends_nil rfl rfl
    · exact appends_nil rfl rfl

/-- A step from a drive-free state was a reset, or appended a stretch that lights at most one LED and returns. -/
theorem step_lightsAndReturns {s t : State} (hs : s.DriveFree) (h : step s = .next t) :
    (∃ seg, Appends s t seg ∧ LightsAndReturns s.pins seg) ∨
      ∃ st rest, s.pending = st :: rest ∧ st.rst = true ∧ t = (presented s st rest).applyReset := by
  have stays {u : State} (hu : step s = .next u) (htrace : u.trace = s.trace) (hpins : u.pins = s.pins) :
      ∃ seg, Appends s t seg ∧ LightsAndReturns s.pins seg := by
    obtain rfl : u = t := next_unique hu h
    exact ⟨[], appends_nil htrace hpins, lightsAndReturns_nil hs.floating⟩
  cases hp : s.pending with
  | nil => exact .inl (stays (step_of_nothing_pending hp) rfl rfl)
  | cons st rest =>
    cases hr : st.rst with
    | true =>
      obtain rfl := next_unique (step_of_reset hp hr) h
      exact .inr ⟨st, rest, rfl, hr, rfl⟩
    | false =>
      refine .inl ?_
      rw [step_of_pending hp] at h stays
      cases hc : st.cmd with
      | none => exact stays (respond_of_pause hr hc _) rfl rfl
      | some w =>
        rw [respond_of_word hr hc] at h
        have hw : ∀ p v, decode w ≠ .ok (.drive p v) :=
          fun p v => hs.no_drive st (hp ▸ List.mem_cons_self) w p v hc
        obtain ⟨seg, happ, hseg⟩ := runWord_lightsAndReturns hw (s := presented s st rest) hs.floating h
        exact ⟨seg, ⟨happ.trace, happ.pins⟩, hseg⟩

/-- Settles O51: the step returns the pins to floating, and its stream is the tail of one without DRIVE. -/
theorem everyStepWithoutDriveLightsAtMostOneLed : Obligations.EveryStepWithoutDriveLightsAtMostOneLed := by
  unfold Obligations.EveryStepWithoutDriveLightsAtMostOneLed
  intro s t hs h
  have hnd : ∀ st ∈ t.pending, ∀ (w : Word) (p : Pin) (v : Level), st.cmd = some w → decode w ≠ .ok (.drive p v) :=
    fun st hst => hs.no_drive st (List.mem_of_mem_tail (step_pending_eq_tail h ▸ hst))
  rcases step_lightsAndReturns hs h with ⟨seg, happ, hseg⟩ | ⟨st, rest, hp, hr, rfl⟩
  · have hpins : t.pins = s.pins := happ.pins_eq hseg
    exact ⟨⟨hpins ▸ hs.floating, hnd⟩, .inl ⟨seg, happ.trace, hseg.1⟩⟩
  · exact ⟨⟨State.resetWith_floating s.params, hnd⟩, .inr ⟨st, rest, hp, hr, rfl⟩⟩

/-! ## FLOAT keeps the electrical invariant, DRIVE can break it -/

theorem Pins.Electrical.legal {ps : Pins} (h : ps.Electrical) : ps.Legal := fun p => by
  rcases h.2.2 p with e | e | e <;> rw [e]
  · exact PinMode.code_ne_invalid .h
  · exact PinMode.code_ne_invalid .l
  · exact PinMode.code_ne_invalid .z

/-- Releasing a pin raises no count of a driven mode. -/
theorem Pins.countCode_float_le_one {ps : Pins} {c : BitVec 2} (hc : c ≠ PinMode.z.code) (h : ps.countCode c ≤ 1)
    (p : Pin) : (ps.set p PinMode.z.code).countCode c ≤ 1 := by
  have kept (q : Pin) (hq : (ps.set p PinMode.z.code).get q = c) : ps.get q = c := by
    by_cases hqp : q = p
    · subst hqp
      rw [Pins.get_set_self] at hq
      exact absurd hq.symm hc
    · rwa [Pins.get_set_of_ne _ _ hqp] at hq
  exact Pins.countCode_le_one_iff.2 fun q r hq hr => Pins.countCode_le_one_iff.1 h q r (kept q hq) (kept r hr)

theorem Pins.Electrical.float {ps : Pins} (h : ps.Electrical) (p : Pin) : (ps.set p PinMode.z.code).Electrical := by
  obtain ⟨hhigh, hlow, hmodes⟩ := h
  refine ⟨Pins.countCode_float_le_one PinMode.code_h_ne_z hhigh p,
    Pins.countCode_float_le_one PinMode.code_l_ne_z hlow p, fun q => ?_⟩
  by_cases hq : q = p
  · subst hq
    exact .inr (.inr (Pins.get_set_self ..))
  · rw [Pins.get_set_of_ne _ _ hq]
    exact hmodes q

/-- Settles O34: INV leaves one H pin and one L pin; FLOAT releases a pin; DRIVE can add a second H pin. -/
theorem invariantLightsAtMostOneLed : Obligations.InvariantLightsAtMostOneLed := by
  unfold Obligations.InvariantLightsAtMostOneLed
  refine ⟨fun ps i j i' j' h hij hij' => ?_, fun s t p h hexec => ?_, ?_⟩
  · obtain ⟨hhigh, hlow, -⟩ := h
    obtain ⟨hi, hj⟩ := Pins.energised_iff.1 hij
    obtain ⟨hi', hj'⟩ := Pins.energised_iff.1 hij'
    exact ⟨Pins.countCode_le_one_iff.1 hhigh i' i hi' hi, Pins.countCode_le_one_iff.1 hlow j' j hj' hj⟩
  · obtain ⟨seg, rfl | rfl, happ⟩ := exec_appends hexec <;> rw [happ.pins]
    · exact h
    · exact h.float p
  · refine ⟨State.reset.setPin 0 PinMode.h.code, _, 1, .high, by decide, execDrive_eq (by decide) (by decide) 1 .high, ?_⟩
    decide

end Sys2Proof.Machine
end

section
/-! The CharlieplexDriver: LIGHT, FRAME and GAP, and what the trace of a frame shows (43_charlieplex.md R61 to R68). -/

namespace Sys2Proof.Machine

/-! ## LIGHT -/

/-- What a stretch played on a running block leaves alone: the result is withdrawn, only pin registers and trace move. -/
theorem play_frame (s : State) (seg : List Event) :
    ((s.setResult none).play seg).result = none ∧ ((s.setResult none).play seg).tb = s.tb ∧
      ((s.setResult none).play seg).keyA = s.keyA ∧ ((s.setResult none).play seg).keyB = s.keyB ∧
      ((s.setResult none).play seg).status = s.status ∧ SameOutside s ((s.setResult none).play seg) :=
  ⟨rfl, rfl, rfl, rfl, rfl, ⟨rfl, rfl, rfl⟩⟩

/-- LIGHT of a pair of distinct pins on a running block with legal pin registers. -/
theorem execLight_of_ne {s : State} (h : s.halted = false) (hl : s.pins.Legal) {hi lo : Pin} (hne : hi ≠ lo) (c : Bool) :
    exec (.light hi lo c) s = .next ((s.setResult none).play (slotTrace hi lo c)) := by
  rw [execLight_eq h hl, if_neg hne]

theorem afterEvents_slotTrace_false (ps : Pins) (hi lo : Pin) : ps.afterEvents (slotTrace hi lo false) = ps := rfl

/-- Settles O35: the checks in their order, then the five events of the slot, or its hold alone. -/
theorem lightHoldsOneSlot : Obligations.LightHoldsOneSlot := by
  unfold Obligations.LightHoldsOneSlot
  refine ⟨decode_encode_light, fun s hi lo c h => ⟨fun hp => ?_, fun hl heq => ?_, fun hl hne => ?_⟩⟩
  · exact exec_haltedWith_of_invalid_pin h hp (.inl rfl)
  · refine ⟨raiseHalt .badPair s, ?_, raiseHalt_haltedWith .badPair s⟩
    rw [execLight_eq h hl, if_pos heq]
  · refine ⟨_, execLight_of_ne h hl hne c, ?_, ?_, play_frame s _⟩
    · rintro rfl
      exact ⟨rfl, afterEvents_slotTrace_false s.pins hi lo⟩
    · rintro rfl
      refine ⟨rfl, ?_, ?_, fun q hh hlo => ?_⟩ <;> refine (get_afterEvents_slotTrace s.pins hne true _).trans ?_
      · exact if_pos ⟨rfl, .inl rfl⟩
      · exact if_pos ⟨rfl, .inr rfl⟩
      · exact if_neg fun ⟨_, hq⟩ => hq.elim hh hlo

/-- Settles O36: the one hold of the slot stands over the driven pair. -/
theorem lightEnergisesExactlyItsLed : Obligations.LightEnergisesExactlyItsLed := by
  unfold Obligations.LightEnergisesExactlyItsLed
  exact fun s hi lo h hz hne => ⟨_, slotTrace hi lo true, s.pins.drivePair hi lo, execLight_of_ne h hz.legal hne true, rfl,
    holds_slotTrace s.pins hi lo true, hz.energised_drivePair hne⟩

/-! ## FRAME as twelve LIGHTs -/

/-- What an earlier command returned makes no difference to an operation. -/
theorem exec_setResult (i : Instr) (s : State) (r : Option Result) : exec i (s.setResult r) = exec i s := by
  have key (body : State → State) : unlessHalted (s.setResult r) body = unlessHalted s body := by
    simp only [unlessHalted, State.setResult_halted]
    rfl
  cases i <;> exact congrArg Host.Outcome.next (key _)

theorem State.play_nil (s : State) : s.play [] = s := by simp [State.play, Pins.afterEvents]

/-- What a list of slots appends to the trace; all twelve in order are the frame's. -/
def slotsTrace (pat : BitVec 12) (l : List (Fin 12)) : List Event :=
  l.flatMap fun n => slotTrace (slotPair n).1 (slotPair n).2 (pat.getLsbD n.val)

theorem slotsTrace_cons (pat : BitVec 12) (n : Fin 12) (l : List (Fin 12)) :
    slotsTrace pat (n :: l) = slotTrace (slotPair n).1 (slotPair n).2 (pat.getLsbD n.val) ++ slotsTrace pat l :=
  List.flatMap_cons

theorem frameTrace_eq_slotsTrace (pat : BitVec 12) : frameTrace pat = slotsTrace pat slots := rfl

/-- The LIGHT of a slot of a frame, after an answer. -/
def thenLight (pat : BitVec 12) (a : Answer) (n : Fin 12) : Answer :=
  andThen a (exec (.light (slotPair n).1 (slotPair n).2 (pat.getLsbD n.val)))

theorem foldl_thenLight_of_halted (pat : BitVec 12) {s : State} (h : s.halted = true) (hr : s.setResult none = s)
    (l : List (Fin 12)) : l.foldl (thenLight pat) (.next s) = .next s := by
  induction l with
  | nil => rfl
  | cons n l ih => rw [List.foldl_cons, thenLight, andThen_next, exec_of_halted h, hr, ih]

theorem foldl_thenLight_of_legal (pat : BitVec 12) {s : State} (h : s.halted = false) (hl : s.pins.Legal)
    (hr : s.setResult none = s) (l : List (Fin 12)) :
    l.foldl (thenLight pat) (.next s) =
      .next (s.play (slotsTrace pat l)) := by
  induction l generalizing s with
  | nil => exact congrArg Host.Outcome.next (s.play_nil).symm
  | cons n l ih =>
    rw [List.foldl_cons, thenLight, andThen_next, execLight_of_ne h hl (slotPair_ne n), hr,
      ih (s := s.play _) h (hl.afterEvents _) (congrArg (State.play · _) hr), State.play_play, slotsTrace_cons]

/-- FRAME on a state whose result is already withdrawn is its LIGHTs one after another. -/
theorem execFrame_eq_foldl (pat : BitVec 12) {s : State} (hr : s.setResult none = s) :
    exec (.frame pat) s = slots.foldl (thenLight pat) (.next s) := by
  cases h : s.halted with
  | true => rw [exec_of_halted h, foldl_thenLight_of_halted pat h hr, hr]
  | false =>
    by_cases hl : s.pins.Legal
    · rw [execFrame_eq h hl, foldl_thenLight_of_legal pat h hl hr, hr, frameTrace_eq_slotsTrace]
    · have hbad : ∃ p : Pin, s.pins.get p = invalidPinCode := by simpa using hl
      rw [exec_of_invalid_pin h hbad (.inl rfl), slots, List.foldl_cons, thenLight, andThen_next,
        exec_of_invalid_pin h hbad (.inl rfl), foldl_thenLight_of_halted pat (raiseHalt_halted ..) rfl]

/-- The slots of a frame leave each pin register as it was, or release it. -/
theorem get_afterEvents_slots (pat : BitVec 12) (l : List (Fin 12)) (ps : Pins) (q : Pin) :
    (ps.afterEvents (slotsTrace pat l)).get q = ps.get q ∨
      (ps.afterEvents (slotsTrace pat l)).get q = PinMode.z.code := by
  induction l generalizing ps with
  | nil => exact .inl rfl
  | cons n l ih =>
    rw [slotsTrace_cons, Pins.afterEvents_append]
    refine (ih _).elim (fun he => ?_) .inr
    rw [he, get_afterEvents_slotTrace ps (slotPair_ne n)]
    split
    · exact .inr rfl
    · exact .inl rfl

/-- Settles O39: the twelve triples are the slots with their pairs, and each LIGHT answers as its slot of the frame. -/
theorem frameIsTwelveLightsInSlotOrder : Obligations.FrameIsTwelveLightsInSlotOrder := by
  unfold Obligations.FrameIsTwelveLightsInSlotOrder
  refine ⟨decode_encode_frame, fun s pat => ?_, fun s pat h => ⟨fun hp => ?_, fun hl => ?_⟩⟩
  · calc exec (.frame pat) s
        = exec (.frame pat) (s.setResult none) := (exec_setResult _ s none).symm
      _ = slots.foldl (thenLight pat) (.next (s.setResult none)) := execFrame_eq_foldl pat rfl
      _ = slots.foldl (thenLight pat) (.next s) := by
          rw [slots, List.foldl_cons, thenLight, andThen_next, exec_setResult]
          rfl
      _ = _ := rfl
  · exact exec_haltedWith_of_invalid_pin h hp (.inl rfl)
  · obtain ⟨hres, htb, hA, hB, hstatus, hout⟩ := play_frame s (frameTrace pat)
    exact ⟨_, execFrame_eq h hl pat, hres, htb, hA, hB, hstatus, hout, get_afterEvents_slots pat slots s.pins⟩

/-! ## The holds of a frame -/

theorem holds_slots_durations (pat : BitVec 12) (l : List (Fin 12)) (ps : Pins) :
    (holds ps (slotsTrace pat l)).map Prod.fst = List.replicate l.length Duration.slot := by
  induction l generalizing ps with
  | nil => rfl
  | cons n l ih =>
    rw [slotsTrace_cons, holds_append, List.map_append, holds_slotTrace, ih, List.length_cons, List.replicate_succ]
    rfl

theorem nominalLength_slotTrace (p : Params) (hi lo : Pin) (c : Bool) :
    nominalLength p (slotTrace hi lo c) = p.tSlot := by
  cases c <;> rfl

theorem nominalLength_slots (p : Params) (pat : BitVec 12) (l : List (Fin 12)) :
    nominalLength p (slotsTrace pat l) =
      l.length * p.tSlot := by
  induction l with
  | nil => exact (Nat.zero_mul _).symm
  | cons n l ih =>
    rw [slotsTrace_cons, nominalLength_append, nominalLength_slotTrace, ih, List.length_cons, Nat.succ_mul,
      Nat.add_comm]

/-- Settles O40: each of the twelve slots holds T_SLOT once, whatever its bit. -/
theorem framePeriodIsContentIndependent : Obligations.FramePeriodIsContentIndependent := by
  unfold Obligations.FramePeriodIsContentIndependent
  exact fun s pat h hl => ⟨_, frameTrace pat, execFrame_eq h hl pat, rfl, holds_slots_durations pat slots s.pins,
    nominalLength_slots s.params pat slots⟩

/-! ## GAP -/

/-- GAP with a legal brightness index holds its delay and touches no register. -/
theorem execGap_frame {s : State} (h : s.halted = false) (hl : s.pins.Legal) {b : BitVec 2} {d : Nat}
    (hd : interFrameDelay b = some d) :
    ∃ t, exec (.gap b) s = .next t ∧ t.trace = s.trace ++ [.hold (.us d)] ∧ t.result = none ∧ SameRegisters s t ∧
      SameOutside s t :=
  ⟨_, execGap_of_delay h hl hd, rfl, rfl, ⟨rfl, rfl, rfl, rfl, rfl⟩, ⟨rfl, rfl, rfl⟩⟩

theorem interFrameDelay_values {b : BitVec 2} (hb : b ≠ 3#2) :
    ∃ d, interFrameDelay b = some d ∧ (b = 0#2 → d = 20000) ∧ (b = 1#2 → d = 1000) ∧ (b = 2#2 → d = 0) := by
  obtain ⟨d, hd⟩ := Option.ne_none_iff_exists'.1 fun hn => hb ((interFrameDelay_eq_none_iff b).1 hn)
  refine ⟨d, hd, ?_, ?_, ?_⟩ <;> rintro rfl <;> exact (Option.some.inj hd).symm

/-- Settles O41: the check of the pins, that of the index, and the hold of the delay. -/
theorem gapHoldsTheDelayOfTheIndex : Obligations.GapHoldsTheDelayOfTheIndex := by
  unfold Obligations.GapHoldsTheDelayOfTheIndex
  refine ⟨decode_encode_gap, fun s b h => ⟨fun hp => ?_, fun hl hb => ?_, fun hl hb => ?_⟩⟩
  · exact exec_haltedWith_of_invalid_pin h hp (.inl rfl)
  · have hnone := (interFrameDelay_eq_none_iff b).2 hb
    exact ⟨_, execGap_of_no_delay h hl hnone, raiseHalt_haltedWith .badBrightness s⟩
  · obtain ⟨d, hd, h0, h1, h2⟩ := interFrameDelay_values hb
    obtain ⟨t, ht, htrace, hres, hsame, hout⟩ := execGap_frame h hl hd
    exact ⟨t, d, ht, htrace, h0, h1, h2, hres, hsame, hout⟩

/-- Settles O42: four GAPs one after another, each from the registers that the block began with. -/
theorem brightnessCycleReturnsToItsDelay : Obligations.BrightnessCycleReturnsToItsDelay := by
  unfold Obligations.BrightnessCycleReturnsToItsDelay
  intro s h hl
  have gap {t : State} (ht : SameRegisters s t) (b : BitVec 2) (d : Nat) (hd : interFrameDelay b = some d) :
      ∃ u, exec (.gap b) t = .next u ∧ u.trace = t.trace ++ [.hold (.us d)] ∧ SameRegisters s u := by
    obtain ⟨u, hu, htrace, -, hsame, -⟩ := execGap_frame (ht.halted_eq.trans h) (ht.pins ▸ hl) hd
    exact ⟨u, hu, htrace, ht.trans hsame⟩
  obtain ⟨t0, h0, e0, s0⟩ := gap (.refl s) 0#2 20000 rfl
  obtain ⟨t1, h1, e1, s1⟩ := gap s0 1#2 1000 rfl
  obtain ⟨t2, h2, e2, s2⟩ := gap s1 2#2 0 rfl
  obtain ⟨t3, h3, e3, s3⟩ := gap s2 0#2 20000 rfl
  refine ⟨t0, t1, t2, t3, h0, h1, h2, h3, ?_, s3⟩
  simp [e3, e2, e1, e0]

/-! ## FRAME then GAP -/

theorem slots_eq_finRange : slots = List.finRange 12 := by decide

/-- From floating pins the hold of each slot shows its pair driven, or all pins floating. -/
theorem holds_slots_of_floating {ps : Pins} (hz : ps.AllFloating) (pat : BitVec 12) (l : List (Fin 12)) :
    holds ps (slotsTrace pat l) =
      l.map fun n => (.slot, if pat.getLsbD n.val then ps.drivePair (slotPair n).1 (slotPair n).2 else ps) := by
  induction l with
  | nil => rfl
  | cons n l ih =>
    rw [slotsTrace_cons, holds_append, holds_slotTrace, afterEvents_slotTrace_floating hz _ _ (slotPair_ne n), ih,
      List.map_cons, List.singleton_append]

theorem pinEvents_slots (pat : BitVec 12) (l : List (Fin 12)) :
    pinEvents (slotsTrace pat l) =
      4 * l.countP fun n => pat.getLsbD n.val := by
  induction l with
  | nil => rfl
  | cons n l ih =>
    rw [slotsTrace_cons, pinEvents_append, ih, List.countP_cons]
    cases pat.getLsbD n.val
    · exact Nat.zero_add _
    · exact Nat.add_comm 4 _

/-- The hold of a slot energises the slot's LED if its bit is set, and none if it is not. -/
theorem energised_in_slot {ps : Pins} (hz : ps.AllFloating) (pat : BitVec 12) (n : Fin 12) (i j : Pin) :
    (if pat.getLsbD n.val then ps.drivePair (slotPair n).1 (slotPair n).2 else ps).energised i j = true ↔
      pat.getLsbD n.val = true ∧ (i, j) = slotPair n := by
  cases pat.getLsbD n.val with
  | true => simp [hz.energised_drivePair (slotPair_ne n), Prod.ext_iff]
  | false => simp [hz.energised_eq_false]

/-- Settles O43: the frame's stretch by its twelve slots, then the hold of the delay over floating pins. -/
theorem frameThenGapTraceShowsThePattern : Obligations.FrameThenGapTraceShowsThePattern := by
  unfold Obligations.FrameThenGapTraceShowsThePattern
  intro s pat b h hz hb
  obtain ⟨d, hd, -⟩ := interFrameDelay_values hb
  have hreturns : s.pins.afterEvents (frameTrace pat) = s.pins := (lightsAndReturns_frameTrace hz pat).2
  have hlegal : (s.pins.afterEvents (frameTrace pat)).Legal := hreturns.symm ▸ hz.legal
  have hholds : holds s.pins (frameTrace pat ++ [.hold (.us d)]) =
      slots.map (fun n => (.slot, if pat.getLsbD n.val then s.pins.drivePair (slotPair n).1 (slotPair n).2 else s.pins)) ++
        [(.us d, s.pins)] := by
    rw [holds_append, hreturns, frameTrace_eq_slotsTrace, holds_slots_of_floating hz]
    rfl
  refine ⟨_, _, frameTrace pat ++ [.hold (.us d)], execFrame_eq h hz.legal pat,
    execGap_of_delay (s := (s.setResult none).play (frameTrace pat)) h hlegal hd, ?_, ?_, ?_, ?_, ?_,
    fun n => ⟨_, ?_, energised_in_slot hz pat n⟩, ?_⟩
  · exact List.append_assoc ..
  · refine ⟨.us d, ?_⟩
    rw [frameTrace, slots_eq_finRange]
    rfl
  · exact show (s.pins.afterEvents (frameTrace pat)).AllFloating from hreturns.symm ▸ hz
  · rw [hholds]
    rfl
  · rw [pinEvents_append, frameTrace_eq_slotsTrace, pinEvents_slots, slots_eq_finRange]
    rfl
  · have hn : slots[n.val]? = some n := by revert n; decide
    rw [hholds, List.getElem?_append_left (by exact n.isLt), List.getElem?_map, hn]
    rfl
  · refine ⟨d, s.pins, ?_, hd, hz⟩
    rw [hholds]
    rfl

end Sys2Proof.Machine
end

section
/-! TimeBase: the laws of `scale` and what a TICK adds (40_timebase.md R45, R46, R48; 70_reset_and_hazards.md R100). -/

namespace Sys2Proof.Machine

/-! ## scale -/

theorem scale_mono (p : Params) {x y : Nat} (h : x ≤ y) : scale p x ≤ scale p y :=
  Nat.div_le_div_right (Nat.mul_le_mul_right _ h)

theorem scale_add_le (p : Params) (x y : Nat) : scale p x + scale p y ≤ scale p (x + y) := by
  rw [scale, scale, scale, Nat.add_mul]
  exact Nat.div_add_div_le_add_div ..

theorem scale_eq_self {p : Params} (h : p.fTick = 1000000) (x : Nat) : scale p x = x := by
  rw [scale, h]
  exact Nat.mul_div_cancel x (by decide)

/-- Settles O17: the laws of the natural quotient, and its values at the spec's four frequencies. -/
theorem scaleIsExactFloorWithItsLaws : Obligations.ScaleIsExactFloorWithItsLaws := by
  unfold Obligations.ScaleIsExactFloorWithItsLaws
  intro p
  refine ⟨fun _ => rfl, by simp [scale], fun x y => scale_mono p, fun x => ⟨Nat.div_mul_le_self .., ?_⟩, scale_add_le p,
    scale_eq_self, fun h => ?_, fun h => ?_, fun h => ?_⟩
  · exact Nat.lt_mul_of_div_lt (Nat.lt_succ_self _) p.fTick_pos
  · simp [scale, h]
  · simp [scale, h]
  · simp [scale, h]

/-! ## TICK -/

/-- A TICK whose sum fits in 64 bits: the TimeBase takes the reading and the sum, and the sum is the result. -/
theorem execTick_of_fits {s : State} (h : s.halted = false) {sum : Nat}
    (hsum : s.tb.total.toNat + scale s.params (subMod s.params.cw s.readRaw s.tb.lastRaw) = sum) (hfits : sum < 2 ^ 64) :
    ∃ t, exec .tick s = .next t ∧ t.tb.lastRaw = s.readRaw ∧ t.tb.total.toNat = sum ∧
      t.result = some (.elapsed t.tb.total) ∧ t.keyA = s.keyA ∧ t.keyB = s.keyB ∧ t.pins = s.pins ∧
      t.status = s.status ∧ t.trace = s.trace ∧ SameOutside s t := by
  subst hsum
  obtain ⟨t, ht, ⟨hover, -⟩ | ⟨-, hnat, rfl⟩⟩ := execTick_cases h
  · omega
  · exact ⟨_, ht, rfl, hnat, rfl, rfl, rfl, rfl, rfl, rfl, ⟨rfl, rfl, rfl⟩⟩

theorem execTick_of_overflow {s : State} (h : s.halted = false)
    (hover : 2 ^ 64 ≤ s.tb.total.toNat + scale s.params (subMod s.params.cw s.readRaw s.tb.lastRaw)) :
    exec .tick s = .next (raiseHalt .durationOverflow s) := by
  obtain ⟨t, ht, ⟨-, rfl⟩ | ⟨hfits, -⟩⟩ := execTick_cases h
  · exact ht
  · omega

theorem resElapsed_of_result {t : State} {d : Micros} (h : t.result = some (.elapsed d)) : t.resElapsed = some d := by
  rw [State.resElapsed, h]

/-- Settles O16: the delta of two CW-bit values is the modular subtraction that TICK computes. -/
theorem tickAddsTheScaledModularDelta : Obligations.TickAddsTheScaledModularDelta := by
  unfold Obligations.TickAddsTheScaledModularDelta
  refine ⟨decode_encode .tick, fun s h hraw => ?_⟩
  have hdelta := subMod_eq s.readRaw_lt hraw
  refine ⟨fun hfits => ?_, fun hover => ?_⟩
  · obtain ⟨t, ht, hlast, htotal, hres, hrest⟩ := execTick_of_fits h (by rw [hdelta]; rfl) hfits
    exact ⟨t, ht, hlast, htotal, resElapsed_of_result hres, hrest⟩
  · exact ⟨_, execTick_of_overflow h (by rw [hdelta]; exact hover), raiseHalt_haltedWith .durationOverflow s⟩

/-- The difference of two counter readings is the true number of ticks between them, modulo the counter's period. -/
theorem subMod_of_ticks (n c d : Nat) : subMod n ((c + d) % 2 ^ n) (c % 2 ^ n) = d % 2 ^ n := by
  have wrap (x : Nat) : BitVec.ofNat n (x % 2 ^ n) = BitVec.ofNat n x := BitVec.eq_of_toNat_eq (by simp)
  rw [subMod, wrap, wrap, BitVec.ofNat_add, BitVec.add_comm, BitVec.add_sub_cancel, BitVec.toNat_ofNat]

/-- Settles O19: the reading at c + n ticks differs from that at c ticks by n modulo the period. -/
theorem tickDropsWholeCounterPeriods : Obligations.TickDropsWholeCounterPeriods := by
  unfold Obligations.TickDropsWholeCounterPeriods
  intro s c n h hlast hraw hfits
  have hread : s.readRaw = (c + n) % 2 ^ s.params.cw := by rw [State.readRaw, hraw]
  have hdelta : subMod s.params.cw s.readRaw s.tb.lastRaw = n % 2 ^ s.params.cw := by
    rw [hread, hlast, subMod_of_ticks]
  obtain ⟨t, ht, hlast', htotal, -, -, -, -, hstatus, -⟩ := execTick_of_fits h (by rw [hdelta]) hfits
  refine ⟨t, ht, (State.halted_congr hstatus).trans h, htotal, hlast'.trans hread, fun hn => ?_⟩
  rw [htotal, Nat.mod_eq_of_lt hn]

/-- Settles O20: a delta below one microsecond scales to 0. -/
theorem subMicrosecondTickIsLost : Obligations.SubMicrosecondTickIsLost := by
  unfold Obligations.SubMicrosecondTickIsLost
  intro s d h hlt hraw hsmall
  have hread : s.readRaw = s.tb.lastRaw + d := by rw [State.readRaw, hraw, Nat.mod_eq_of_lt hlt]
  have hdelta : subMod s.params.cw s.readRaw s.tb.lastRaw = d := by
    rw [hread, subMod_eq hlt (by omega), if_pos (Nat.le_add_right ..), Nat.add_sub_cancel_left]
  have hzero : scale s.params d = 0 := Nat.div_eq_of_lt hsmall
  obtain ⟨t, ht, hlast, htotal, hres, -⟩ := execTick_of_fits h (by rw [hdelta, hzero, Nat.add_zero]) s.tb.total.isLt
  have htotal' : t.tb.total = s.tb.total := BitVec.eq_of_toNat_eq htotal
  exact ⟨t, ht, htotal', hlast.trans hread, htotal' ▸ resElapsed_of_result hres⟩

end Sys2Proof.Machine
end

section
/-! Debounce: what one UPDATE decides, scripts of UPDATEs of one key, and the independence of the two keys
(41_debounce.md R49 to R55; 44_loop_protocol.md R74; 70_reset_and_hazards.md R97). -/

namespace Sys2Proof.Machine

/-! ## One UPDATE -/

theorem resState_of_result {t : State} {st : ButtonState} (h : t.result = some (.state st)) :
    t.resState = some st.code := by
  rw [State.resState, h]

theorem resState_of_no_result {t : State} (h : t.result = none) : t.resState = none := by
  rw [State.resState, h]

/-- Settles O21: the three cases of UPDATE, told apart by the statement's premises. -/
theorem updateFollowsTheDebounceAlgorithm : Obligations.UpdateFollowsTheDebounceAlgorithm := by
  unfold Obligations.UpdateFollowsTheDebounceAlgorithm
  refine ⟨decode_encode (.update .a), decode_encode (.update .b), fun s k h => ?_⟩
  obtain ⟨t, ht, hcases⟩ := execUpdate_cases h k
  refine ⟨fun hlt => ?_, fun hle hne hage => ?_, fun hle hsteady => ?_⟩
  · rcases hcases with ⟨-, rfl⟩ | ⟨hle, -⟩ | ⟨hle, -⟩
    · exact ⟨_, ht, raiseHalt_haltedWith .nowRegressed s⟩
    · exact absurd hlt (BitVec.not_lt.2 hle)
    · exact absurd hlt (BitVec.not_lt.2 hle)
  · rcases hcases with ⟨hlt, -⟩ | ⟨-, -, -, rfl⟩ | ⟨-, heq | hage', -⟩
    · exact absurd hlt (BitVec.not_lt.2 hle)
    · exact ⟨_, ht, by simp, (resState_of_result rfl).trans (congrArg some (edgeState_code _)),
        fun j hj => by simp [State.setKey_key_of_ne s _ hj], by simp, by simp, by simp, by simp, by simp, by simp, by simp⟩
    · exact absurd heq hne
    · exact absurd hage (Nat.not_lt.2 hage')
  · rcases hcases with ⟨hlt, -⟩ | ⟨-, hne, hage, -⟩ | ⟨-, -, rfl⟩
    · exact absurd hlt (BitVec.not_lt.2 hle)
    · exact (hsteady.elim hne (Nat.not_le.2 hage)).elim
    · refine ⟨_, ht, (resState_of_result rfl).trans ?_, setResult_sameRegisters s _, rfl, setResult_sameOutside s _⟩
      rw [steadyState_code]
      cases s.params.steadySrc <;> rfl

/-- Settles O29: with both timestamps 0 and `now` at most 50 000 the accepted level stands. -/
theorem noTransitionIsAcceptedSoonAfterReset : Obligations.NoTransitionIsAcceptedSoonAfterReset := by
  unfold Obligations.NoTransitionIsAcceptedSoonAfterReset
  intro p k ports hnow
  have hkey : ((State.resetWith p).setPorts ports).key k = { low := false, tLast := 0#64 } := by cases k <;> rfl
  obtain ⟨t, ht, hcases⟩ := execUpdate_cases (s := (State.resetWith p).setPorts ports) (State.resetWith_halted p) k
  rw [hkey] at hcases
  rcases hcases with ⟨hlt, -⟩ | ⟨-, -, hage, -⟩ | ⟨-, -, rfl⟩
  · exact absurd hlt BitVec.not_lt_zero
  · exact absurd (hage.trans_le (Nat.sub_le ..)) (Nat.not_lt.2 hnow)
  · refine ⟨_, ht, ⟨rfl, rfl, rfl, rfl, rfl⟩, ?_⟩
    rw [State.resState_of_state, steadyState_code]
    split
    · exact .inr rfl
    · exact .inl rfl

/-! ## What an UPDATE decides -/

/-- What UPDATE decides from STEADY_SRC, the key's registers, the level on its line and `now`: nothing when `now` has
regressed, else the key's new registers and the state it returns (41_debounce.md R49). -/
def debounce (src : SteadySrc) (key : Key) (level : Level) (now : Micros) : Option (Key × ButtonState) :=
  let low := decide (level = .low)
  if now < key.tLast then none
  else if low ≠ key.low ∧ 50000 < now.toNat - key.tLast.toNat then some ({ low := low, tLast := now }, edgeState low)
  else some (key, steadyState (steadyLevel src low key.low))

theorem debounce_of_regressed (src : SteadySrc) {key : Key} (level : Level) {now : Micros} (h : now < key.tLast) :
    debounce src key level now = none := if_pos h

theorem debounce_of_accepted (src : SteadySrc) {key : Key} {level : Level} {now : Micros} (hle : key.tLast ≤ now)
    (hne : decide (level = .low) ≠ key.low) (hage : 50000 < now.toNat - key.tLast.toNat) :
    debounce src key level now =
      some ({ low := decide (level = .low), tLast := now }, edgeState (decide (level = .low))) := by
  simp only [debounce]
  rw [if_neg (BitVec.not_lt.2 hle), if_pos ⟨hne, hage⟩]

theorem debounce_of_steady (src : SteadySrc) {key : Key} {level : Level} {now : Micros} (hle : key.tLast ≤ now)
    (h : decide (level = .low) = key.low ∨ now.toNat - key.tLast.toNat ≤ 50000) :
    debounce src key level now = some (key, steadyState (steadyLevel src (decide (level = .low)) key.low)) := by
  simp only [debounce]
  rw [if_neg (BitVec.not_lt.2 hle), if_neg fun hacc => h.elim hacc.1 (Nat.not_le.2 hacc.2)]

theorem debounce_cases (src : SteadySrc) (key : Key) (level : Level) (now : Micros) :
    let low := decide (level = .low)
    (now < key.tLast ∧ debounce src key level now = none) ∨
      (key.tLast ≤ now ∧ low ≠ key.low ∧ 50000 < now.toNat - key.tLast.toNat ∧
        debounce src key level now = some ({ low := low, tLast := now }, edgeState low)) ∨
      (key.tLast ≤ now ∧ (low = key.low ∨ now.toNat - key.tLast.toNat ≤ 50000) ∧
        debounce src key level now = some (key, steadyState (steadyLevel src low key.low))) := by
  by_cases hlt : now < key.tLast
  · exact .inl ⟨hlt, debounce_of_regressed src level hlt⟩
  · have hle := BitVec.not_lt.1 hlt
    by_cases hacc : decide (level = .low) ≠ key.low ∧ 50000 < now.toNat - key.tLast.toNat
    · exact .inr (.inl ⟨hle, hacc.1, hacc.2, debounce_of_accepted src hle hacc.1 hacc.2⟩)
    · have hsteady := (not_and_or.1 hacc).imp not_not.1 Nat.not_lt.1
      exact .inr (.inr ⟨hle, hsteady, debounce_of_steady src hle hsteady⟩)

/-- A block after what an UPDATE decided. -/
def applyUpdate (k : KeySel) (s : State) : Option (Key × ButtonState) → State
  | none => raiseHalt .nowRegressed s
  | some (v, st) => (s.setKey k v).setResult (some (.state st))

theorem State.setKey_self (s : State) (k : KeySel) : s.setKey k (s.key k) = s := by cases k <;> rfl

@[simp] theorem State.setKey_readBtn (s : State) (j k : KeySel) (v : Key) : (s.setKey j v).readBtn k = s.readBtn k := by
  cases j <;> cases k <;> rfl

/-- UPDATE of a running block is its decision, applied. -/
theorem execUpdate_eq {s : State} (h : s.halted = false) (k : KeySel) :
    exec (.update k) s =
      .next (applyUpdate k s (debounce s.params.steadySrc (s.key k) (s.readBtn k) s.ports.now)) := by
  obtain ⟨t, ht, ⟨hlt, rfl⟩ | ⟨hle, hne, hage, rfl⟩ | ⟨hle, hsteady, rfl⟩⟩ := execUpdate_cases h k <;> rw [ht]
  · rw [debounce_of_regressed _ _ hlt, applyUpdate]
  · rw [debounce_of_accepted _ hle hne hage, applyUpdate]
  · rw [debounce_of_steady _ hle hsteady, applyUpdate, State.setKey_self]

theorem applyUpdate_key_of_ne {j k : KeySel} (h : j ≠ k) (s : State) (o : Option (Key × ButtonState)) :
    (applyUpdate k s o).key j = s.key j := by
  cases o with
  | none => simp [applyUpdate, raiseHalt]
  | some d => simp [applyUpdate, State.setKey_key_of_ne s _ h]

/-- Settles O26: UPDATE writes its own key alone, and decides from what the two states agree on. -/
theorem keysAreIndependent : Obligations.KeysAreIndependent := by
  unfold Obligations.KeysAreIndependent
  refine ⟨fun s t k j hj h => ?_, fun s s' t t' k hkey hbtn hnow hsrc hhalted h h' => ?_⟩
  · cases hs : s.halted with
    | true =>
      obtain rfl := next_unique (exec_of_halted hs _) h
      exact s.setResult_key none j
    | false =>
      obtain rfl := next_unique (execUpdate_eq hs k) h
      exact applyUpdate_key_of_ne hj s _
  · cases hs : s.halted with
    | true =>
      have hs' := hhalted.trans hs
      obtain rfl := next_unique (exec_of_halted hs _) h
      obtain rfl := next_unique (exec_of_halted hs' _) h'
      exact ⟨by simp [hkey], rfl, hhalted⟩
    | false =>
      have hs' := hhalted.trans hs
      obtain rfl := next_unique (execUpdate_eq hs k) h
      obtain rfl := next_unique (execUpdate_eq hs' k) h'
      rw [hkey, hbtn, hnow, hsrc]
      cases debounce s.params.steadySrc (s.key k) (s.readBtn k) s.ports.now with
      | none => exact ⟨by simp [applyUpdate, raiseHalt, hkey], rfl, by simp [applyUpdate]⟩
      | some d => exact ⟨by simp [applyUpdate], rfl, by simp [applyUpdate, hhalted]⟩

/-- STEADY_SRC makes a difference in a steady state alone, while the sampled level is not the accepted one. -/
theorem debounce_src (src src' : SteadySrc) (key : Key) (level : Level) (now : Micros) :
    debounce src' key level now = debounce src key level now ∨
      (decide (level = .low) ≠ key.low ∧ src' ≠ src ∧ ∃ b b', debounce src key level now = some (key, steadyState b) ∧
        debounce src' key level now = some (key, steadyState b')) := by
  unfold debounce
  dsimp only
  split
  · exact .inl rfl
  · split
    · exact .inl rfl
    · by_cases hsrc : src' = src
      · exact .inl (by rw [hsrc])
      · by_cases hlow : decide (level = .low) = key.low
        · rw [hlow]
          exact .inl (by cases src <;> cases src' <;> rfl)
        · exact .inr ⟨hlow, hsrc, _, _, rfl, rfl⟩

theorem code_steadyState (b : Bool) : (steadyState b).code = 0b00#2 ∨ (steadyState b).code = 0b01#2 := by
  cases b
  · exact .inl rfl
  · exact .inr rfl

/-- Settles O27: the decisions under the two parameter values are one, or two steady states of the same registers. -/
theorem steadySourceChangesSteadyOutputOnly : Obligations.SteadySourceChangesSteadyOutputOnly := by
  unfold Obligations.SteadySourceChangesSteadyOutputOnly
  intro s t t' k p h h'
  cases hs : s.halted with
  | true =>
    obtain rfl := next_unique (exec_of_halted hs _) h
    obtain rfl := next_unique (exec_of_halted (s := { s with params := p }) hs _) h'
    exact ⟨⟨rfl, rfl, rfl, rfl, rfl⟩, fun hne => absurd rfl hne⟩
  | false =>
    have hkey : ({ s with params := p } : State).key k = s.key k := by cases k <;> rfl
    have hbtn : ({ s with params := p } : State).readBtn k = s.readBtn k := by cases k <;> rfl
    obtain rfl := next_unique (execUpdate_eq hs k) h
    obtain rfl := next_unique (execUpdate_eq (s := { s with params := p }) hs k) h'
    rw [hkey, hbtn]
    dsimp only
    rcases debounce_src s.params.steadySrc p.steadySrc (s.key k) (s.readBtn k) s.ports.now with
      e | ⟨hlow, hsrc, b, b', e, e'⟩
    · rw [e]
      cases debounce s.params.steadySrc (s.key k) (s.readBtn k) s.ports.now with
      | none => exact ⟨⟨rfl, rfl, rfl, rfl, rfl⟩, fun hne => absurd rfl hne⟩
      | some d => exact ⟨by cases k <;> exact ⟨rfl, rfl, rfl, rfl, rfl⟩, fun hne => absurd rfl hne⟩
    · rw [e, e']
      exact ⟨by cases k <;> exact ⟨rfl, rfl, rfl, rfl, rfl⟩, fun _ =>
        ⟨(code_steadyState b).imp (congrArg some) (congrArg some),
          (code_steadyState b').imp (congrArg some) (congrArg some), hlow, hsrc⟩⟩

/-! ## The two UPDATEs of an iteration -/

/-- Without regress an UPDATE decides on registers and a state to return. -/
theorem exists_debounce_eq_some {key : Key} {now : Micros} (h : key.tLast ≤ now) (src : SteadySrc) (level : Level) :
    ∃ v st, debounce src key level now = some (v, st) ∧ v.tLast ≤ now := by
  rcases debounce_cases src key level now with ⟨hlt, -⟩ | ⟨-, -, -, e⟩ | ⟨-, -, e⟩
  · exact absurd hlt (BitVec.not_lt.2 h)
  · exact ⟨_, _, e, BitVec.le_refl _⟩
  · exact ⟨_, _, e, h⟩

theorem execUpdate_of_debounce {s : State} (h : s.halted = false) {k : KeySel} {v : Key} {st : ButtonState}
    (hd : debounce s.params.steadySrc (s.key k) (s.readBtn k) s.ports.now = some (v, st)) :
    exec (.update k) s = .next ((s.setKey k v).setResult (some (.state st))) := by
  rw [execUpdate_eq h, hd, applyUpdate]

/-- An UPDATE of one key decides the same before and after the other key's. -/
theorem execUpdate_after_other {s : State} (h : s.halted = false) {j k : KeySel} (hne : k ≠ j) {v w : Key}
    {st : ButtonState} (r : Option Result)
    (hd : debounce s.params.steadySrc (s.key k) (s.readBtn k) s.ports.now = some (v, st)) :
    exec (.update k) ((s.setKey j w).setResult r) = .next (((s.setKey j w).setKey k v).setResult (some (.state st))) := by
  rw [exec_setResult]
  refine execUpdate_of_debounce (by simpa using h) ?_
  rwa [State.setKey_key_of_ne s w hne, State.setKey_readBtn, State.setKey_params, State.setKey_ports]

/-- Settles O28: each key's decision reads nothing that the other's UPDATE writes. -/
theorem orderOfTheTwoUpdatesIsIrrelevant : Obligations.OrderOfTheTwoUpdatesIsIrrelevant := by
  unfold Obligations.OrderOfTheTwoUpdatesIsIrrelevant
  intro s h hA hB
  obtain ⟨v, st, hv, -⟩ := exists_debounce_eq_some (key := s.key .a) hA s.params.steadySrc (s.readBtn .a)
  obtain ⟨w, su, hw, -⟩ := exists_debounce_eq_some (key := s.key .b) hB s.params.steadySrc (s.readBtn .b)
  exact ⟨_, _, _, _, execUpdate_of_debounce h hv, execUpdate_after_other h (by decide) _ hw, execUpdate_of_debounce h hw,
    execUpdate_after_other h (by decide) _ hv, ⟨rfl, rfl, rfl, rfl, rfl⟩, rfl, rfl, rfl⟩

/-! ## Scripts of UPDATEs of one key -/

/-- An UPDATE under a sample of a running block is its decision on the sample. -/
theorem exec_sample {s : State} (h : s.halted = false) (k : KeySel) (x : Sample) :
    exec (x.command k).1 (s.setPorts (x.command k).2) =
      .next (applyUpdate k (s.setPorts (x.command k).2) (debounce s.params.steadySrc (s.key k) x.level x.now)) := by
  have hbtn : (s.setPorts (x.command k).2).readBtn k = x.level := by cases k <;> rfl
  rw [← hbtn, ← State.setPorts_key s (x.command k).2 k]
  exact execUpdate_eq (s := s.setPorts (x.command k).2) h k

/-- A sample that finds `now` regressed: from there on the block is halted and nothing is returned. -/
theorem trail_of_regressed {s : State} (h : s.halted = false) {k : KeySel} {x : Sample} (l : List Sample)
    (hd : debounce s.params.steadySrc (s.key k) x.level x.now = none) :
    ∀ t ∈ trail ((x :: l).map (Sample.command k)) s, t.key k = s.key k ∧ t.result = none := by
  have he := exec_sample h k x
  rw [hd, applyUpdate] at he
  rw [List.map_cons, trail_cons he, List.forall_mem_cons]
  refine ⟨⟨by simp [raiseHalt], rfl⟩, fun t ht => ?_⟩
  obtain ⟨hsame, -, hres⟩ := trail_of_halted _ _ (raiseHalt_halted ..) t ht
  exact ⟨(State.key_congr hsame.keyA hsame.keyB k).trans (by simp [raiseHalt]), hres⟩

/-- A sample that is decided: the state after it, and the script from there. -/
theorem trail_of_sampled {s : State} (h : s.halted = false) {k : KeySel} {x : Sample} (l : List Sample) {v : Key}
    {st : ButtonState} (hd : debounce s.params.steadySrc (s.key k) x.level x.now = some (v, st)) :
    ∃ t, trail ((x :: l).map (Sample.command k)) s = t :: trail (l.map (Sample.command k)) t ∧ t.halted = false ∧
      t.key k = v ∧ t.params = s.params ∧ t.result = some (.state st) := by
  have he := exec_sample h k x
  rw [hd, applyUpdate] at he
  exact ⟨_, trail_cons he, by simpa using h, by simp, by simp, rfl⟩

theorem returnedStates_eq_nil {l : List State} (h : ∀ t ∈ l, t.result = none) : returnedStates l = [] :=
  List.filterMap_eq_nil_iff.2 fun t ht => by rw [h t ht]

theorem returnedStates_cons_of_state {t : State} {st : ButtonState} (h : t.result = some (.state st)) (l : List State) :
    returnedStates (t :: l) = st :: returnedStates l := by simp [returnedStates, h]

theorem edgesAlternate_edgeState {low low' : Bool} (h : low' ≠ low) (l : List ButtonState) :
    edgesAlternate low (edgeState low' :: l) = edgesAlternate low' l := by
  cases low <;> cases low' <;> simp [edgesAlternate, edgeState] at h ⊢

theorem edgesAlternate_steadyState (low b : Bool) (l : List ButtonState) :
    edgesAlternate low (steadyState b :: l) = edgesAlternate low l := by cases b <;> rfl

/-- Along every script of one key the edge states alternate. -/
theorem edgesAlternate_trail (k : KeySel) (l : List Sample) (s : State) (h : s.halted = false) :
    edgesAlternate (s.key k).low (returnedStates (trail (l.map (Sample.command k)) s)) = true := by
  induction l generalizing s with
  | nil => rfl
  | cons x l ih =>
    rcases debounce_cases s.params.steadySrc (s.key k) x.level x.now with ⟨-, e⟩ | ⟨-, hne, -, e⟩ | ⟨-, -, e⟩
    · rw [returnedStates_eq_nil fun t ht => (trail_of_regressed h l e t ht).2]
      rfl
    · obtain ⟨t, htrail, hrun, hkey, -, hres⟩ := trail_of_sampled h l e
      have ih' := ih t hrun
      rw [hkey] at ih'
      rw [htrail, returnedStates_cons_of_state hres, edgesAlternate_edgeState hne, ih']
    · obtain ⟨t, htrail, hrun, hkey, -, hres⟩ := trail_of_sampled h l e
      rw [htrail, returnedStates_cons_of_state hres, edgesAlternate_steadyState, ← hkey, ih t hrun]

theorem code_edgeState_eq_pressed (b : Bool) : (edgeState b).code = 0b11#2 ↔ b = true := by cases b <;> decide
theorem code_edgeState_eq_released (b : Bool) : (edgeState b).code = 0b10#2 ↔ b = false := by cases b <;> decide
theorem code_steadyState_ne_edge (b : Bool) : (steadyState b).code ≠ 0b10#2 ∧ (steadyState b).code ≠ 0b11#2 := by
  cases b <;> decide

/-- Settles O23: an accepted level differs from the old one; along a script by induction on the samples. -/
theorem edgeStatesAlternateOnePerAcceptedTransition : Obligations.EdgeStatesAlternateOnePerAcceptedTransition := by
  unfold Obligations.EdgeStatesAlternateOnePerAcceptedTransition
  refine ⟨fun s t k h hexec => ?_, edgesAlternate_trail⟩
  obtain ⟨u, hu, hcases⟩ := execUpdate_cases h k
  obtain rfl := next_unique hu hexec
  rcases hcases with ⟨-, rfl⟩ | ⟨-, hne, -, rfl⟩ | ⟨-, -, rfl⟩
  · simp [raiseHalt]
  · have hchanged : ({ low := decide (s.readBtn k = .low), tLast := s.ports.now } : Key) ≠ s.key k :=
      fun e => hne (congrArg Key.low e)
    simp [hchanged, code_edgeState_eq_pressed, code_edgeState_eq_released]
  · simp [code_steadyState_ne_edge]

/-- Settles O24: inside the lockout a sample regresses and halts the block, or is steady and writes nothing. -/
theorem noTransitionIsAcceptedInTheLockout : Obligations.NoTransitionIsAcceptedInTheLockout := by
  unfold Obligations.NoTransitionIsAcceptedInTheLockout
  intro k l
  induction l with
  | nil => exact fun s _ _ t ht => by cases ht
  | cons x l ih =>
    intro s h hnow t ht
    obtain ⟨hx, hl⟩ := List.forall_mem_cons.1 hnow
    rcases debounce_cases s.params.steadySrc (s.key k) x.level x.now with ⟨-, e⟩ | ⟨-, -, hage, -⟩ | ⟨-, -, e⟩
    · obtain ⟨hkey, hres⟩ := trail_of_regressed h l e t ht
      simp [hkey, resState_of_no_result hres]
    · omega
    · obtain ⟨u, htrail, hrun, hkey, -, hres⟩ := trail_of_sampled h l e
      rw [htrail] at ht
      rcases List.mem_cons.1 ht with rfl | ht
      · simp [hkey, resState_of_result hres, code_steadyState_ne_edge]
      · rw [← hkey] at hl ⊢
        exact ih u hrun hl t ht

/-- Samples of one level that is the accepted one, or that fall in the lockout, return the steady state and change
nothing. -/
theorem returnedStates_of_steady (k : KeySel) (lvl : Level) (l rest : List Sample) (s : State) (h : s.halted = false)
    (hl : ∀ y ∈ l, y.level = lvl ∧ (s.key k).tLast ≤ y.now ∧
      (decide (lvl = .low) = (s.key k).low ∨ y.now.toNat ≤ (s.key k).tLast.toNat + 50000)) :
    ∃ t, t.halted = false ∧ t.key k = s.key k ∧ t.params = s.params ∧
      returnedStates (trail ((l ++ rest).map (Sample.command k)) s) =
        List.replicate l.length (steadyState (steadyLevel s.params.steadySrc (decide (lvl = .low)) (s.key k).low)) ++
          returnedStates (trail (rest.map (Sample.command k)) t) := by
  induction l generalizing s with
  | nil => exact ⟨s, h, rfl, rfl, rfl⟩
  | cons y l ih =>
    obtain ⟨⟨rfl, hle, hsteady⟩, hl⟩ := List.forall_mem_cons.1 hl
    have e := debounce_of_steady s.params.steadySrc hle (hsteady.imp_right Nat.sub_le_iff_le_add'.2)
    obtain ⟨u, htrail, hrun, hkey, hparams, hres⟩ := trail_of_sampled h (l ++ rest) e
    obtain ⟨t, htrun, htkey, htparams, hreturned⟩ := ih u hrun (hkey ▸ hl)
    refine ⟨t, htrun, htkey.trans hkey, htparams.trans hparams, ?_⟩
    rw [List.cons_append, htrail, returnedStates_cons_of_state hres, hreturned, hkey, hparams]
    rfl

theorem steadyLevel_self (src : SteadySrc) (b : Bool) : steadyLevel src b b = b := by cases src <;> rfl

theorem returnedStates_nil : returnedStates [] = [] := rfl

/-- Settles O25: steady samples in the lockout, one accepted sample, then steady samples of the accepted level. -/
theorem sustainedLevelGivesOneEdgeThenSteady : Obligations.SustainedLevelGivesOneEdgeThenSteady := by
  unfold Obligations.SustainedLevelGivesOneEdgeThenSteady
  intro k lvl early late x s h hne hearly hxlvl hx hlate
  dsimp only
  obtain ⟨t, htrun, htkey, htparams, hreturned⟩ := returnedStates_of_steady k lvl early (x :: late) s h
    fun y hy => by
      obtain ⟨hlevel, hle, hnow⟩ := hearly y hy
      exact ⟨hlevel, hle, .inr hnow⟩
  have haccepted : debounce t.params.steadySrc (t.key k) x.level x.now =
      some ({ low := decide (lvl = .low), tLast := x.now }, edgeState (decide (lvl = .low))) := by
    rw [htkey, hxlvl]
    exact debounce_of_accepted _ (BitVec.le_def.2 (by omega)) hne (by omega)
  obtain ⟨u, htrail, hurun, hukey, -, hures⟩ := trail_of_sampled htrun late haccepted
  obtain ⟨_, -, -, -, hlatereturned⟩ := returnedStates_of_steady k lvl late [] u hurun fun y hy => by
    obtain ⟨hlevel, hle⟩ := hlate y hy
    exact ⟨hlevel, hukey ▸ hle, .inl (by rw [hukey])⟩
  rw [List.append_nil, hukey, steadyLevel_self] at hlatereturned
  rw [hreturned, htrail, returnedStates_cons_of_state hures, hlatereturned, List.map_nil, trail, returnedStates_nil,
    List.append_nil]
  cases s.params.steadySrc <;> rfl

end Sys2Proof.Machine
end

section
/-! Which ports an operation reads (20_memory.md R31 to R33; 70_reset_and_hazards.md R96). -/

namespace Sys2Proof.Machine

/-- New port values show an operation what it reads just as the old ones did: the counter's CW bits to TICK, the line
and `now` to an UPDATE of that key, nothing to the others. -/
def ReadsAlike (s : State) (p : Ports) : Instr → Prop
  | .tick => (s.setPorts p).readRaw = s.readRaw
  | .update k => (s.setPorts p).readBtn k = s.readBtn k ∧ p.now = s.ports.now
  | .active _ | .float _ | .drive _ _ | .light _ _ _ | .frame _ | .gap _ => True

theorem tickBody_setPorts {s : State} {p : Ports} (h : (s.setPorts p).readRaw = s.readRaw) :
    tickBody (s.setPorts p) = (tickBody s).setPorts p := by
  simp only [tickBody, h, State.setPorts_params, State.setPorts_tb]
  split <;> rfl

theorem applyUpdate_setPorts (k : KeySel) (s : State) (p : Ports) (o : Option (Key × ButtonState)) :
    applyUpdate k (s.setPorts p) o = (applyUpdate k s o).setPorts p := by
  cases o with
  | none => rfl
  | some d => cases k <;> rfl

/-- Under ports that read alike an operation answers alike, but for the ports. -/
theorem exec_setPorts {i : Instr} {s t : State} {p : Ports} (hreads : ReadsAlike s p i) (h : exec i s = .next t) :
    exec i (s.setPorts p) = .next (t.setPorts p) := by
  have answers {u : State} (hu : exec i s = .next u) (hu' : exec i (s.setPorts p) = .next (u.setPorts p)) :
      exec i (s.setPorts p) = .next (t.setPorts p) := next_unique hu h ▸ hu'
  cases hs : s.halted with
  | true => exact answers (exec_of_halted hs i) (exec_of_halted (s := s.setPorts p) hs i)
  | false =>
    have hs' : (s.setPorts p).halted = false := hs
    by_cases hbad : checksPins i ∧ ¬ s.pins.Legal
    · obtain ⟨hi, hl⟩ := hbad
      have hpin : ∃ q : Pin, s.pins.get q = invalidPinCode := by simpa using hl
      exact answers (exec_of_invalid_pin hs hpin hi) (exec_of_invalid_pin (s := s.setPorts p) hs' hpin hi)
    have hl (hi : checksPins i) : s.pins.Legal := not_not.1 fun hl => hbad ⟨hi, hl⟩
    cases i with
    | tick =>
      refine answers rfl ?_
      rw [exec, execTick, unlessHalted_of_running hs, unlessHalted_of_running hs']
      exact congrArg Host.Outcome.next (tickBody_setPorts (s := s.setResult none) hreads)
    | update k =>
      obtain ⟨hbtn, hnow⟩ := hreads
      refine answers (execUpdate_eq hs k) ?_
      rw [execUpdate_eq hs', hbtn, State.setPorts_key, State.setPorts_ports, State.setPorts_params, hnow,
        applyUpdate_setPorts]
    | active st => exact answers (execActive_eq hs st) (execActive_eq hs' st)
    | float q => exact answers (execFloat_eq hs (hl (.inr rfl)) q) (execFloat_eq hs' (hl (.inr rfl)) q)
    | drive q v => exact answers (execDrive_eq hs (hl (.inr rfl)) q v) (execDrive_eq hs' (hl (.inr rfl)) q v)
    | frame pat => exact answers (execFrame_eq hs (hl (.inl rfl)) pat) (execFrame_eq hs' (hl (.inl rfl)) pat)
    | light q r c =>
      refine answers (execLight_eq hs (hl (.inl rfl)) q r c) ((execLight_eq hs' (hl (.inl rfl)) q r c).trans ?_)
      split <;> rfl
    | gap b =>
      cases hd : interFrameDelay b with
      | none =>
        exact answers (execGap_of_no_delay hs (hl (.inl rfl)) hd) (execGap_of_no_delay hs' (hl (.inl rfl)) hd)
      | some d => exact answers (execGap_of_delay hs (hl (.inl rfl)) hd) (execGap_of_delay hs' (hl (.inl rfl)) hd)

/-- Settles O48: the two answers differ in the ports alone. -/
theorem portsAreSampledOnlyByTheirOperation : Obligations.PortsAreSampledOnlyByTheirOperation := by
  unfold Obligations.PortsAreSampledOnlyByTheirOperation
  intro i s t t' p h h' hports
  have hreads : ReadsAlike s p i := by
    cases i with
    | update k => cases k <;> exact hports
    | tick | active | float | drive | light | frame | gap => exact hports
  obtain rfl := next_unique (exec_setPorts hreads h) h'
  exact ⟨⟨rfl, rfl, rfl, rfl, rfl⟩, rfl, rfl⟩

end Sys2Proof.Machine
end

section
/-! The owner's protocol: what every command of an iteration keeps, and the iteration assembled from them
(44_loop_protocol.md R71 to R75, R102). -/

namespace Sys2Proof.Machine

/-! ## The states the protocol keeps -/

theorem State.ProtocolReady.congr {s t : State} (h : s.ProtocolReady) (hsame : SameRegisters s t) : t.ProtocolReady where
  running := hsame.halted_eq.trans h.running
  keyA_le := by rw [hsame.keyA, hsame.tb]; exact h.keyA_le
  keyB_le := by rw [hsame.keyB, hsame.tb]; exact h.keyB_le
  floating := by rw [hsame.pins]; exact h.floating

theorem State.ProtocolReady.key_le {s : State} (h : s.ProtocolReady) (k : KeySel) : (s.key k).tLast ≤ s.tb.total := by
  cases k
  · exact h.keyA_le
  · exact h.keyB_le

theorem State.ProtocolReady.kept {s : State} (h : s.ProtocolReady) : s.ProtocolKept := ⟨h.floating, .inl h⟩

/-- A halt on a brightness index, or on the overflow of the total, keeps the protocol. -/
theorem raiseHalt_kept {s : State} (hz : s.pins.AllFloating) {c : Cause}
    (hc : c = .badBrightness ∨ c = .durationOverflow) : (raiseHalt c s).ProtocolKept := by
  refine ⟨hz, .inr ⟨raiseHalt_halted c s, ?_⟩⟩
  rw [raiseHalt_cause]
  exact hc.imp (congrArg Cause.code) (congrArg Cause.code)

/-- A state that the protocol keeps is ready, or halted for good. -/
theorem State.ProtocolKept.ready_or_halted {s : State} (h : s.ProtocolKept) : s.ProtocolReady ∨ s.halted = true :=
  h.2.imp_right And.left

theorem State.ProtocolKept.congr {s t : State} (h : s.ProtocolKept) (hsame : SameRegisters s t) : t.ProtocolKept := by
  obtain ⟨hz, hready | ⟨hhalted, hcause⟩⟩ := h
  · exact (hready.congr hsame).kept
  · refine ⟨hsame.pins.symm ▸ hz, .inr ⟨hsame.halted_eq.trans hhalted, ?_⟩⟩
    rwa [State.cause_congr hsame.status]

/-! ## The commands after the TICK -/

/-- The commands that an iteration issues after its TICK. -/
def followsTick : Instr → Bool
  | .update _ | .active _ | .frame _ | .gap _ => true
  | .tick | .float _ | .drive _ _ | .light _ _ _ => false

theorem followsTick_of_mem_commands {x : Iteration} {i : Instr} (h : i ∈ x.commands) : followsTick i = true := by
  rcases Iteration.mem_commands.1 h with rfl | rfl | ⟨st, -, rfl⟩ | rfl | rfl <;> rfl

theorem gap_mem_commands {x : Iteration} {b : BitVec 2} (h : .gap b ∈ x.commands) : b = x.b := by
  simpa using Iteration.mem_commands.1 h

/-- With `now` at the total no timestamp is ahead, so an UPDATE completes and leaves none ahead. -/
theorem execUpdate_ready {s : State} (hs : s.ProtocolReady) (hnow : s.ports.now = s.tb.total) (k : KeySel) :
    ∃ t, exec (.update k) s = .next t ∧ t.tb = s.tb ∧ t.ProtocolReady := by
  obtain ⟨v, st, hd, hv⟩ := exists_debounce_eq_some (hnow ▸ hs.key_le k) s.params.steadySrc (s.readBtn k)
  rw [hnow] at hv
  refine ⟨_, execUpdate_of_debounce hs.running hd, by simp, ?_⟩
  cases k with
  | a => exact ⟨hs.running, hv, hs.keyB_le, hs.floating⟩
  | b => exact ⟨hs.running, hs.keyA_le, hv, hs.floating⟩

/-- FRAME completes and lets the pins float again. -/
theorem execFrame_ready {s : State} (hs : s.ProtocolReady) (pat : BitVec 12) :
    ∃ t, exec (.frame pat) s = .next t ∧ t.tb = s.tb ∧ t.ProtocolReady := by
  have hpins : s.pins.afterEvents (frameTrace pat) = s.pins := (lightsAndReturns_frameTrace hs.floating pat).2
  exact ⟨_, execFrame_eq hs.running hs.floating.legal pat, rfl, hs.congr ⟨rfl, rfl, rfl, hpins, rfl⟩⟩

/-- Each command after the TICK keeps a ready block ready; a GAP on the index 3 halts it instead. -/
theorem exec_of_ready {i : Instr} (hi : followsTick i = true) {s : State} (hs : s.ProtocolReady)
    (hnow : s.ports.now = s.tb.total) :
    ∃ t, exec i s = .next t ∧ t.tb = s.tb ∧ t.ProtocolKept ∧ (i ≠ .gap 3#2 → t.ProtocolReady) := by
  have ready (h : ∃ t, exec i s = .next t ∧ t.tb = s.tb ∧ t.ProtocolReady) :
      ∃ t, exec i s = .next t ∧ t.tb = s.tb ∧ t.ProtocolKept ∧ (i ≠ .gap 3#2 → t.ProtocolReady) := by
    obtain ⟨t, ht, htb, hready⟩ := h
    exact ⟨t, ht, htb, hready.kept, fun _ => hready⟩
  cases i with
  | tick | float | drive | light => cases hi
  | update k => exact ready (execUpdate_ready hs hnow k)
  | active st => exact ready ⟨_, execActive_eq hs.running st, rfl, hs.congr (setResult_sameRegisters s _)⟩
  | frame pat => exact ready (execFrame_ready hs pat)
  | gap b =>
    rcases execGap_cases hs.running hs.floating.legal b with ⟨rfl, he⟩ | ⟨-, d, -, he⟩
    · exact ⟨_, he, rfl, raiseHalt_kept hs.floating (.inl rfl), fun h => absurd rfl h⟩
    · exact ready ⟨_, he, rfl, hs.congr ⟨rfl, rfl, rfl, rfl, rfl⟩⟩

/-- The owner issues a command by its word, which decodes to it. -/
theorem issue_eq (i : Instr) (p : Ports) (s : State) : issue i p s = exec i (s.setPorts p) :=
  issue_of_decode (decode_encode i) p s

/-- Commands in sequence with `now` at the total keep the protocol; without a GAP on the index 3 they keep a ready block
ready. -/
theorem issueAll_kept {p : Ports} {is : List Instr} (his : ∀ i ∈ is, followsTick i = true) {s : State}
    (hs : s.ProtocolKept) (hnow : p.now = s.tb.total) :
    ∃ t, issueAll p is s = .next t ∧ t.tb = s.tb ∧ t.ProtocolKept ∧
      (s.ProtocolReady → .gap 3#2 ∉ is → t.ProtocolReady) := by
  induction is generalizing s with
  | nil => exact ⟨s, rfl, rfl, hs, fun h _ => h⟩
  | cons i is ih =>
    obtain ⟨hi, his⟩ := List.forall_mem_cons.1 his
    have hports : SameRegisters s (s.setPorts p) := ⟨rfl, rfl, rfl, rfl, rfl⟩
    have first : ∃ u, issue i p s = .next u ∧ u.tb = s.tb ∧ u.ProtocolKept ∧
        (s.ProtocolReady → i ≠ .gap 3#2 → u.ProtocolReady) := by
      rw [issue_eq]
      rcases hs.ready_or_halted with hready | hhalted
      · obtain ⟨u, hu, htb, hkept, hready'⟩ := exec_of_ready hi (hready.congr hports) hnow
        exact ⟨u, hu, htb, hkept, fun _ => hready'⟩
      · refine ⟨_, exec_of_halted (s := s.setPorts p) hhalted i, rfl,
          (hs.congr hports).congr (setResult_sameRegisters _ none), fun h => ?_⟩
        simp [h.running] at hhalted
    obtain ⟨u, hu, htb, hkept, hready⟩ := first
    obtain ⟨t, ht, htb', hkept', hready'⟩ := ih his hkept (hnow.trans (congrArg TimeBase.total htb.symm))
    refine ⟨t, (issueAll_cons hu).trans ht, htb'.trans htb, hkept', fun h hgap => ?_⟩
    rw [List.mem_cons, not_or] at hgap
    exact hready' (hready h (Ne.symm hgap.1)) hgap.2

/-! ## The TICK and the iteration -/

/-- A TICK that fits raises the total, so no timestamp comes to be ahead of it. -/
theorem execTick_ready {s : State} (hs : s.ProtocolReady) {sum : Nat}
    (hsum : s.tb.total.toNat + scale s.params (subMod s.params.cw s.readRaw s.tb.lastRaw) = sum) (hfits : sum < 2 ^ 64) :
    ∃ t, exec .tick s = .next t ∧ t.result = some (.elapsed t.tb.total) ∧ t.ProtocolReady ∧ t.tb.total.toNat = sum ∧
      t.tb.lastRaw = s.readRaw := by
  obtain ⟨t, ht, hlast, htotal, hres, hA, hB, hpins, hstatus, -, -⟩ := execTick_of_fits hs.running hsum hfits
  have hle : s.tb.total ≤ t.tb.total := by
    rw [BitVec.le_def, htotal, ← hsum]
    exact Nat.le_add_right ..
  exact ⟨t, ht, hres, ⟨(State.halted_congr hstatus).trans hs.running, hA ▸ BitVec.le_trans hs.keyA_le hle,
    hB ▸ BitVec.le_trans hs.keyB_le hle, hpins ▸ hs.floating⟩, htotal, hlast⟩

/-- The TICK of an iteration returns the total of a ready block, or nothing, with the protocol kept. -/
theorem execTick_kept {s : State} (hs : s.ProtocolKept) :
    ∃ t, exec .tick s = .next t ∧
      ((t.result = none ∧ t.ProtocolKept) ∨ (t.result = some (.elapsed t.tb.total) ∧ t.ProtocolReady)) := by
  rcases hs.ready_or_halted with hready | hhalted
  · by_cases hfits : s.tb.total.toNat + scale s.params (subMod s.params.cw s.readRaw s.tb.lastRaw) < 2 ^ 64
    · obtain ⟨t, ht, hres, hready', -, -⟩ := execTick_ready hready rfl hfits
      exact ⟨t, ht, .inr ⟨hres, hready'⟩⟩
    · exact ⟨_, execTick_of_overflow hready.running (Nat.not_lt.1 hfits),
        .inl ⟨rfl, raiseHalt_kept hready.floating (.inr rfl)⟩⟩
  · exact ⟨_, exec_of_halted hhalted .tick, .inl ⟨rfl, hs.congr (setResult_sameRegisters s none)⟩⟩

/-- The state in which an iteration's TICK finds the block. -/
abbrev atIterationTick (x : Iteration) (s : State) : State := s.setPorts (x.ports s.ports.now)

theorem atIterationTick_sameRegisters (x : Iteration) (s : State) : SameRegisters s (atIterationTick x s) :=
  ⟨rfl, rfl, rfl, rfl, rfl⟩

/-- An iteration whose TICK returned a duration goes on with that `now`. -/
theorem ownerIteration_of_elapsed {x : Iteration} {s t : State} {e : Micros}
    (h : exec .tick (atIterationTick x s) = .next t) (hres : t.result = some (.elapsed e)) :
    ownerIteration x s = afterTick x e t := by
  simp only [ownerIteration, issue_eq, h, andThen_next, hres]

/-- An iteration whose TICK returned nothing ends there (log entry 9). -/
theorem ownerIteration_of_no_result {x : Iteration} {s t : State} (h : exec .tick (atIterationTick x s) = .next t)
    (hres : t.result = none) : ownerIteration x s = .next t := by
  simp only [ownerIteration, issue_eq, h, andThen_next, hres]

theorem afterTick_kept (x : Iteration) {t : State} (ht : t.ProtocolReady) :
    ∃ u, afterTick x t.tb.total t = .next u ∧ u.tb = t.tb ∧ u.ProtocolKept ∧ (x.b ≠ 3#2 → u.ProtocolReady) := by
  obtain ⟨u, hu, htb, hkept, hready⟩ :=
    issueAll_kept (p := x.ports t.tb.total) (fun i hi => followsTick_of_mem_commands hi) ht.kept rfl
  exact ⟨u, hu, htb, hkept, fun hb => hready ht fun hgap => hb (gap_mem_commands hgap).symm⟩

/-- Settles O49: the TICK fits, and every command after it keeps the block ready. -/
theorem protocolIterationEndsReady : Obligations.ProtocolIterationEndsReady := by
  unfold Obligations.ProtocolIterationEndsReady
  intro x s hs hb sum hfits
  obtain ⟨t, ht, hres, hready, htotal, hlast⟩ :=
    execTick_ready (hs.congr (atIterationTick_sameRegisters x s)) (sum := sum) rfl hfits
  obtain ⟨u, hu, htb, -, hready'⟩ := afterTick_kept x hready
  exact ⟨u, (ownerIteration_of_elapsed ht hres).trans hu, hready' hb, htb ▸ htotal, htb ▸ hlast⟩

theorem ownerIteration_kept (x : Iteration) {s : State} (hs : s.ProtocolKept) :
    ∃ t, ownerIteration x s = .next t ∧ t.ProtocolKept := by
  obtain ⟨t, ht, ⟨hres, hkept⟩ | ⟨hres, hready⟩⟩ := execTick_kept (hs.congr (atIterationTick_sameRegisters x s))
  · exact ⟨t, ownerIteration_of_no_result ht hres, hkept⟩
  · obtain ⟨u, hu, -, hkept, -⟩ := afterTick_kept x hready
    exact ⟨u, (ownerIteration_of_elapsed ht hres).trans hu, hkept⟩

/-- Settles O54: the TICK keeps the protocol, and so does every command after it. -/
theorem everyIterationKeepsTheProtocol : Obligations.EveryIterationKeepsTheProtocol := by
  unfold Obligations.EveryIterationKeepsTheProtocol
  exact fun x s hs => ownerIteration_kept x hs

theorem ownerRun_kept (xs : List Iteration) {s : State} (hs : s.ProtocolKept) :
    ∃ t, ownerRun xs s = .next t ∧ t.ProtocolKept := by
  induction xs generalizing s with
  | nil => exact ⟨s, rfl, hs⟩
  | cons x xs ih =>
    obtain ⟨u, hu, hkept⟩ := ownerIteration_kept x hs
    obtain ⟨t, ht, hkept'⟩ := ih hkept
    exact ⟨t, by rw [ownerRun, hu, andThen_next, ht], hkept'⟩

theorem resetWith_ready (p : Params) : (State.resetWith p).ProtocolReady :=
  ⟨State.resetWith_halted p, BitVec.le_refl _, BitVec.le_refl _, State.resetWith_floating p⟩

/-- Settles O50: the reset state is ready, and by induction every iteration keeps the protocol. -/
theorem protocolNeverRegressesFromReset : Obligations.ProtocolNeverRegressesFromReset := by
  unfold Obligations.ProtocolNeverRegressesFromReset
  exact fun p xs => ownerRun_kept xs (resetWith_ready p).kept

/-! ## The order of the keys -/

/-- Commands in sequence, at least one, answer alike from two states that differ in their result alone. -/
theorem issueAll_congr_of_result {p : Ports} {is : List Instr} (his : is ≠ []) {s t : State}
    (h : s.setResult none = t.setResult none) : issueAll p is s = issueAll p is t := by
  obtain ⟨i, is, rfl⟩ := List.exists_cons_of_ne_nil his
  have issue_cleared (u : State) : issue i p u = exec i ((u.setResult none).setPorts p) := by
    rw [issue_eq, ← exec_setResult i (u.setPorts p) none]
    rfl
  rw [issueAll, issueAll, issue_cleared s, issue_cleared t, h]

/-- The two UPDATEs of an iteration, in either order, leave the same state but for the result. -/
theorem issueAll_updates_either_order {p : Ports} {s : State} (hs : s.ProtocolReady) (hnow : p.now = s.tb.total) :
    ∃ u v, issueAll p [.update .a, .update .b] s = .next u ∧ issueAll p [.update .b, .update .a] s = .next v ∧
      u.setResult none = v.setResult none := by
  have hrun : (s.setPorts p).halted = false := hs.running
  obtain ⟨v, st, hv, -⟩ := exists_debounce_eq_some (hnow ▸ hs.key_le .a) s.params.steadySrc ((s.setPorts p).readBtn .a)
  obtain ⟨w, su, hw, -⟩ := exists_debounce_eq_some (hnow ▸ hs.key_le .b) s.params.steadySrc ((s.setPorts p).readBtn .b)
  have firstA := (issue_eq (.update .a) p s).trans (execUpdate_of_debounce (s := s.setPorts p) hrun hv)
  have firstB := (issue_eq (.update .b) p s).trans (execUpdate_of_debounce (s := s.setPorts p) hrun hw)
  have thenB := execUpdate_after_other (s := s.setPorts p) (k := .b) (j := .a) (w := v) hrun (by decide) (some (.state st)) hw
  have thenA := execUpdate_after_other (s := s.setPorts p) (k := .a) (j := .b) (w := w) hrun (by decide) (some (.state su)) hv
  refine ⟨_, _, (issueAll_cons firstA).trans (issueAll_cons ((issue_eq ..).trans thenB)),
    (issueAll_cons firstB).trans (issueAll_cons ((issue_eq ..).trans thenA)), rfl⟩

/-- Settles O53: after its UPDATEs an iteration issues at least its display, which reads no earlier result. -/
theorem keyOrderOfAnIterationIsIrrelevant : Obligations.KeyOrderOfAnIterationIsIrrelevant := by
  unfold Obligations.KeyOrderOfAnIterationIsIrrelevant
  intro x s hs
  obtain ⟨t, ht, ⟨hres, -⟩ | ⟨hres, hready⟩⟩ := execTick_kept (hs.congr (atIterationTick_sameRegisters x s)).kept
  · exact ⟨t, ownerIteration_of_no_result ht hres, ownerIteration_of_no_result ht hres⟩
  · obtain ⟨u, hu, -⟩ := afterTick_kept { x with first := .a } hready
    refine ⟨u, (ownerIteration_of_elapsed (x := { x with first := .a }) ht hres).trans hu,
      (ownerIteration_of_elapsed (x := { x with first := .b }) ht hres).trans ?_⟩
    obtain ⟨a, b, ha, hb, hab⟩ := issueAll_updates_either_order (p := x.ports t.tb.total) hready rfl
    have hrest : x.actives.map Instr.active ++ x.display ≠ [] := by
      cases hg : x.gapFirst <;> simp [Iteration.display, hg]
    have order (k : KeySel) : afterTick { x with first := k } t.tb.total t =
        andThen (issueAll (x.ports t.tb.total) [.update k, .update (otherKey k)] t)
          (issueAll (x.ports t.tb.total) (x.actives.map Instr.active ++ x.display)) := by
      rw [← issueAll_append, ← List.append_assoc]
      rfl
    rw [order .a] at hu
    rw [order .b, ← hu]
    simp only [otherKey, ha, hb, andThen_next]
    exact issueAll_congr_of_result hrest hab.symm

end Sys2Proof.Machine
end
